-- ==== Sys2Proof/Word.lean ====
section
/-! DEFINITION. The data of the engine: bytes, the 32-bit command word, the 4-byte word, the 16-byte block
(00_scope.md R14, R15; 20_memory.md R59), and their exclusive or. -/

namespace Sys2Proof

/-- A byte (R14). -/
abbrev Byte := BitVec 8

/-- A 32-bit command, status or `STATUS` word (R16). -/
abbrev CmdWord := BitVec 32

/-- A word: a sequence of four bytes `[a0, a1, a2, a3]` (R15). -/
structure Word where
  b0 : Byte
  b1 : Byte
  b2 : Byte
  b3 : Byte
deriving DecidableEq, Repr

/-- A block: 16 bytes, held as the four columns of the state array, column 0 being the first four bytes (R14, R59). -/
structure Block where
  c0 : Word
  c1 : Word
  c2 : Word
  c3 : Word
deriving DecidableEq, Repr

/-- The zero word. -/
def Word.zero : Word := ⟨0, 0, 0, 0⟩

/-- Byte by byte exclusive or of two words (R14). -/
def Word.xor (a b : Word) : Word := ⟨a.b0 ^^^ b.b0, a.b1 ^^^ b.b1, a.b2 ^^^ b.b2, a.b3 ^^^ b.b3⟩

/-- Sixteen zero bytes. -/
def Block.zero : Block := ⟨.zero, .zero, .zero, .zero⟩

/-- Byte by byte exclusive or of two blocks (R14). -/
def Block.xor (a b : Block) : Block := ⟨a.c0.xor b.c0, a.c1.xor b.c1, a.c2.xor b.c2, a.c3.xor b.c3⟩

end Sys2Proof
end

