-- ==== Sys2Proof/Machine/Galois.lean ====
section
/-! DEFINITION. GF(2^8) arithmetic modulo x^8 + x^4 + x^3 + x + 1 (00_scope.md R19). -/

namespace Sys2Proof.Machine

/-- Multiplication by x (R19). -/
def xtime (a : Byte) : Byte := if a.getLsbD 7 then (a <<< 1) ^^^ 0x1b else a <<< 1

/-- The exclusive or over the `n` low bits `i` of `b` that are 1 of `xtime^i(a)` (R19). -/
def gmulBits : Nat → Byte → Byte → Byte
  | 0, _, _ => 0
  | n + 1, a, b => (if b.getLsbD 0 then a else 0) ^^^ gmulBits n (xtime a) (b >>> 1)

/-- `gmul(a, b)` (R19). -/
def gmul (a b : Byte) : Byte := gmulBits 8 a b

end Sys2Proof.Machine
end

