-- ==== Sys2Proof/Config.lean ====
section
/-! DEFINITION. What an implementation fixes (00_scope.md R12). The spec leaves no value of the engine's behaviour open
(10_state.md R37; 92_eei_decisions.md "Everything else is fixed"), so there is no opaque constant here. -/

namespace Sys2Proof.Config

/-- One more than the longest buffer of an `ENC` or `DEC`: the length field has 24 bits (R12, D20). -/
@[simp] abbrev lenLimit : Nat := 16777216

end Sys2Proof.Config
end

