-- ==== Sys2Proof/Syntax.lean ====
section
/-! DEFINITION. The commands, one constructor per row of the opcode table (30_encoding.md R82 to R85), and the reasons
for which a word is no command (R88). -/

namespace Sys2Proof

/-- A command with its fields as the unsigned integers of its word (R87). A field may hold a value the command's own rule
rejects (`MODE` 5..15, `KLEN` 15): that is encodable, and the command's meaning reports it (R89). -/
inductive Instr where
  /-- `INIT`, format I: mode code, key length in bytes, IV length in bytes (R82). -/
  | init (mode klen ivlen : Nat)
  /-- `ENC`, format L: buffer length in bytes (R83). -/
  | enc (len : Nat)
  /-- `DEC`, format L: buffer length in bytes (R83). -/
  | dec (len : Nat)
  /-- `RESET`, format Z (R84). -/
  | reset
  /-- `ZEROIZE`, format Z (R84). -/
  | zeroize
  /-- `RDSTAT`, format Z (R84). -/
  | rdstat
deriving DecidableEq, Repr

/-- Why a command word is illegal (R88). -/
inductive Illegal where
  /-- `OPC` is `0x0` or `0x7`..`0xF`. -/
  | reservedOpcode
  /-- A bit marked "reserved, must be zero" in the command's format is 1. -/
  | reservedBits
deriving DecidableEq, Repr

end Sys2Proof
end

