-- ==== Sys2Proof/WellFormed.lean ====
section
/-! DEFINITION. Which commands can be written as a word: every field fits its bits (30_encoding.md R82, R83). -/

namespace Sys2Proof

/-- Every field of the command fits the bits its format gives it. -/
def Instr.wf : Instr → Bool
  | .init mode klen ivlen => decide (mode < 16) && decide (klen < 256) && decide (ivlen < 256)
  | .enc len => decide (len < Config.lenLimit)
  | .dec len => decide (len < Config.lenLimit)
  | .reset => true
  | .zeroize => true
  | .rdstat => true

end Sys2Proof
end

