-- ==== Sys2Proof/Decode.lean ====
section
/-! DEFINITION. From command words to commands and back (30_encoding.md R81 to R90). A command word is one 32-bit value
moved whole: it has no byte order (20_memory.md R60). -/

namespace Sys2Proof

/-- `cw[hi:lo]`, an unsigned integer (00_scope.md R16). -/
def bits (cw : CmdWord) (hi lo : Nat) : Nat := cw.toNat / 2 ^ lo % 2 ^ (hi - lo + 1)

/-- The command of a word if its reserved bits are all zero (R88). -/
def unlessReserved (reserved : Nat) (i : Instr) : Except Illegal Instr :=
  if reserved = 0 then .ok i else .error .reservedBits

/-- The command a word stands for, or why it stands for none (R85, R87, R88). -/
def decode (cw : CmdWord) : Except Illegal Instr :=
  match bits cw 31 28 with
  | 1 => unlessReserved (bits cw 7 0) (.init (bits cw 27 24) (bits cw 23 16) (bits cw 15 8))
  | 2 => unlessReserved (bits cw 27 24) (.enc (bits cw 23 0))
  | 3 => unlessReserved (bits cw 27 24) (.dec (bits cw 23 0))
  | 4 => unlessReserved (bits cw 27 0) .reset
  | 5 => unlessReserved (bits cw 27 0) .zeroize
  | 6 => unlessReserved (bits cw 27 0) .rdstat
  | _ => .error .reservedOpcode

/-- The word of a command, from the formats of R82 to R84. -/
def encode : Instr → CmdWord
  | .init mode klen ivlen => BitVec.ofNat 32 (0x1 * 2 ^ 28 + mode * 2 ^ 24 + klen * 2 ^ 16 + ivlen * 2 ^ 8)
  | .enc len => BitVec.ofNat 32 (0x2 * 2 ^ 28 + len)
  | .dec len => BitVec.ofNat 32 (0x3 * 2 ^ 28 + len)
  | .reset => BitVec.ofNat 32 (0x4 * 2 ^ 28)
  | .zeroize => BitVec.ofNat 32 (0x5 * 2 ^ 28)
  | .rdstat => BitVec.ofNat 32 (0x6 * 2 ^ 28)

/-- The command word of a row of the opcode table whose `nbits` bits are `w`; the bits above `nbits` are zero. Every command
has exactly one 32-bit word (R80). -/
def tableWord (nbits w : Nat) : CmdWord := BitVec.ofNat 32 (w % 2 ^ nbits)

/-- The command this decoder reads from a row of the opcode table. -/
def decodeTableWord (nbits w : Nat) : Option Instr :=
  match decode (tableWord nbits w) with
  | .ok i => some i
  | .error _ => none

end Sys2Proof
end

