-- ==== Sys2Proof/Machine/State.lean ====
section
/-! DEFINITION. The state of one engine instance: the ten registers of 10_state.md R20, and what stands at its ports
(20_memory.md R50, R54; 30_encoding.md R80). The engine has no addressable memory, no program counter and no general
register (R21, R22, R50), so State has none. -/

namespace Sys2Proof.Machine

/-- The five modes, in the order of their codes 0..4 (R23). -/
inductive Mode where
  | ecb | cbc | cfb | ofb | ctr
deriving DecidableEq, Repr

/-- The values of `NK`, the key length in words: 0 (no session), 4, 6, 8 (R23). -/
inductive KeyWords where
  | k0 | k4 | k6 | k8
deriving DecidableEq, Repr

/-- A key RAM: 60 words (R24, R25; 20_memory.md R50). -/
abbrev Schedule := Vector Word 60

/-- The error kinds of a rejected command (60_exceptions.md R251). -/
inductive Err where
  | invalidKeyLength
  | invalidMode
  | missingOrInvalidIV
  | unalignedBuffer
  | noSession
  | invalidCommand
deriving DecidableEq, Repr

/-- The architectural registers of the engine: the items of R20, each under its own name. -/
structure Regs where
  /-- `VALID`: a session has been constructed and not destroyed (R23). -/
  valid : Bool
  /-- `MODE` (R23). -/
  mode : Mode
  /-- `NK` (R23). -/
  nk : KeyWords
  /-- `EK[0..59]`, the forward key schedule (R24). -/
  ek : Schedule
  /-- `DK[0..59]`, the inverse-transform key schedule (R25). -/
  dk : Schedule
  /-- `IV0` (R26). -/
  iv0 : Block
  /-- `CHAIN` (R27). -/
  chain : Block
  /-- `KS` (R28). -/
  ks : Block
  /-- `POS`, 0..16 (R29). -/
  pos : Fin 17
deriving DecidableEq, Repr

/-- A request of the host: a command word and its input payload (30_encoding.md R80). -/
structure Request where
  word : CmdWord
  payload : List Byte
deriving DecidableEq, Repr

/-- A response of the engine: the status word, the output payload, and for `RDSTAT` one extra word (30_encoding.md R80, R92). -/
structure Response where
  status : CmdWord
  dout : List Byte
  extra : Option CmdWord
deriving DecidableEq, Repr

/-- The engine and its ports. -/
structure State where
  /-- The registers (R20). -/
  regs : Regs
  /-- What the host has sent and the engine has not yet accepted, oldest first (20_memory.md R54, R63). -/
  requests : List Request
  /-- Payload bytes that came with an accepted command word and have not been consumed (20_memory.md R50, R54). -/
  din : List Byte
  /-- What the engine has answered, oldest first (20_memory.md R55). -/
  responses : List Response
deriving DecidableEq, Repr

/-- Reasons the machine stops. Both stand for a host that breaks its duty of 20_memory.md R54, for which the spec says that
a model has no move; both are SAFE (nothing can be proved past them). -/
inductive Fault where
  /-- Raised by every command and by every illegal word when the payload on the data-in stream has not exactly the length
  the word declares, which for an illegal word is 0 (R54, U13, U14; 30_encoding.md R86). SAFE. -/
  | payloadLength
  /-- Raised by the fetch of any request, its word legal or not, while bytes that came with no request stand on the data-in
  stream. No step leaves any there, so no run meets it (U14; log entry 3). SAFE. -/
  | surplusInput
deriving DecidableEq, Repr

/-- Reasons a command has no meaning. -/
inductive Refusal where
  /-- Raised by an arm of `exec` whose command has no meaning yet; no arm does. SAFE. -/
  | notModelled (mnemonic : String)
deriving DecidableEq, Repr

/-- A key RAM of zero words. -/
def Schedule.zero : Schedule := Vector.replicate 60 Word.zero

/-- The registers after power-on reset (70_reset_and_hazards.md R290). -/
def Regs.powerOn : Regs :=
  { valid := false, mode := .ecb, nk := .k0, ek := Schedule.zero, dk := Schedule.zero,
    iv0 := Block.zero, chain := Block.zero, ks := Block.zero, pos := 16 }

/-- The machine right after power-on reset: "No command is in progress; no response is pending; the engine waits for a
command word" (70_reset_and_hazards.md R290). -/
def State.reset : State := { regs := Regs.powerOn, requests := [], din := [], responses := [] }

end Sys2Proof.Machine
end

