-- ==== Sys2Proof/Machine/Operands.lean ====
section
/-! DEFINITION. The operand forms: fields of a command word to modes and key lengths, payload bytes to key, IV, words and
blocks, a block as bytes and as a 128-bit integer (00_scope.md R14 to R17; 20_memory.md R57 to R59; 30_encoding.md R86, R87). -/

namespace Sys2Proof

/-- The four bytes of a word in order (R15). -/
def Word.bytes (w : Word) : List Byte := [w.b0, w.b1, w.b2, w.b3]

/-- The 16 bytes of a block in order: byte `r + 4c` is row `r` of column `c` (20_memory.md R59). -/
def Block.bytes (B : Block) : List Byte := B.c0.bytes ++ B.c1.bytes ++ B.c2.bytes ++ B.c3.bytes

/-- The word made of the four bytes of a sequence from index `i` on. -/
def wordAt (bs : List Byte) (i : Nat) : Word := ⟨bs.getD i 0, bs.getD (i + 1) 0, bs.getD (i + 2) 0, bs.getD (i + 3) 0⟩

/-- The block made of the first 16 bytes of a sequence. -/
def Block.ofBytes (bs : List Byte) : Block := ⟨wordAt bs 0, wordAt bs 4, wordAt bs 8, wordAt bs 12⟩

/-- `B[j]` for `j` in 0..15 (R14). -/
def Block.byte (B : Block) (j : Nat) : Byte := B.bytes.getD j 0

/-- `B[j] <- v` for `j` in 0..15 (00_scope.md R18). -/
def Block.setByte (B : Block) (j : Nat) (v : Byte) : Block := Block.ofBytes (B.bytes.set j v)

/-- The first `n` blocks of a payload, `din[16i .. 16i+15]` (20_memory.md R58). -/
def blocksOf : Nat → List Byte → List Block
  | 0, _ => []
  | n + 1, bs => Block.ofBytes bs :: blocksOf n (bs.drop 16)

/-- The bytes of a sequence of blocks. -/
def bytesOf (Bs : List Block) : List Byte := Bs.flatMap Block.bytes

/-- `be128(B)`: byte 0 most significant (00_scope.md R17). -/
def be128 (B : Block) : Nat := B.bytes.foldl (fun n b => n * 256 + b.toNat) 0

/-- `blk128(n)`, the inverse of `be128`: byte `i` is digit `15 - i` of `n` in base 256 (00_scope.md R17). -/
def blk128 (n : Nat) : Block :=
  Block.ofBytes ((List.range 16).map fun i => BitVec.ofNat 8 (n / 256 ^ (15 - i)))

namespace Machine

/-- The mode a code names; 5..15 name none (30_encoding.md R82). -/
def Mode.ofCode : Nat → Option Mode
  | 0 => some .ecb
  | 1 => some .cbc
  | 2 => some .cfb
  | 3 => some .ofb
  | 4 => some .ctr
  | _ => none

/-- The code of a mode (10_state.md R20, R23). -/
def Mode.code : Mode → Nat
  | .ecb => 0
  | .cbc => 1
  | .cfb => 2
  | .ofb => 3
  | .ctr => 4

/-- ECB and CBC, the block-aligned modes (00_scope.md glossary). -/
def Mode.isBlock : Mode → Bool
  | .ecb => true
  | .cbc => true
  | .cfb => false
  | .ofb => false
  | .ctr => false

/-- `NK` as a number (10_state.md R20). -/
def KeyWords.words : KeyWords → Nat
  | .k0 => 0
  | .k4 => 4
  | .k6 => 6
  | .k8 => 8

/-- `KLEN / 4` for a legal key length in bytes: 16, 24, 32 (00_scope.md R10; 43_session_commands.md R221). -/
def KeyWords.ofKlen : Nat → Option KeyWords
  | 16 => some .k4
  | 24 => some .k6
  | 32 => some .k8
  | _ => none

/-- `Nr = Nk + 6` (00_scope.md R10; 10_state.md R20). -/
def KeyWords.rounds (k : KeyWords) : Nat := k.words + 6

/-- `NW = 4·(Nr+1)` (00_scope.md R11). -/
def KeyWords.scheduleWords (k : KeyWords) : Nat := 4 * (k.rounds + 1)

/-- `key = din[0 .. KLEN−1]` (30_encoding.md R87). -/
def keyOperand (klen : Nat) (din : List Byte) : List Byte := din.take klen

/-- `iv = din[KLEN .. KLEN+IVLEN−1]`, 16 bytes where it is used (30_encoding.md R87). -/
def ivOperand (klen : Nat) (din : List Byte) : Block := Block.ofBytes (din.drop klen)

end Machine

/-- The payload length a command declares (30_encoding.md R86). -/
def Instr.paylen : Instr → Nat
  | .init _ klen ivlen => klen + ivlen
  | .enc len => len
  | .dec len => len
  | .reset => 0
  | .zeroize => 0
  | .rdstat => 0

/-- `paylen(cw)`: how many payload bytes a command word consumes, none for an illegal word (30_encoding.md R86). -/
def paylen (cw : CmdWord) : Nat :=
  match decode cw with
  | .ok i => i.paylen
  | .error _ => 0

end Sys2Proof
end

