-- ==== Sys2Proof/Machine/Flags.lean ====
section
/-! DEFINITION. The engine has no condition codes (10_state.md R31). What it shows of itself is the status word of a
response (30_encoding.md R91) and the `STATUS` register (10_state.md R30). -/

namespace Sys2Proof.Machine

/-- The status code of an error (30_encoding.md R91). -/
def Err.code : Err → Nat
  | .invalidKeyLength => 1
  | .invalidMode => 2
  | .missingOrInvalidIV => 3
  | .unalignedBuffer => 4
  | .noSession => 5
  | .invalidCommand => 6

/-- The status word of an error: the code in bits 7:0, zero above (30_encoding.md R91). -/
def Err.word (e : Err) : CmdWord := BitVec.ofNat 32 e.code

/-- The status word of a successful command, code 0 (30_encoding.md R91). -/
def okWord : CmdWord := 0

/-- `STATUS = zext_32(VALID) | (MODE << 1) | (NK << 4) | (POS << 8)` (10_state.md R30; 43_session_commands.md R240). -/
def Regs.status (r : Regs) : CmdWord :=
  BitVec.ofNat 32 r.valid.toNat ||| BitVec.ofNat 32 r.mode.code <<< 1 ||| BitVec.ofNat 32 r.nk.words <<< 4 |||
    BitVec.ofNat 32 r.pos.val <<< 8

end Sys2Proof.Machine
end

