-- ==== Sys2Proof/Machine/Ops.lean ====
section
/-! DEFINITION. The operations every command shares: consuming its payload, answering, being rejected, reading and filling a
key RAM, and the fetch of the next command from the port. -/

namespace Sys2Proof.Machine

/-- `EK[i]` or `DK[i]` for `i` in 0..59 (20_memory.md R56: no other index is ever read). -/
def Schedule.word (x : Schedule) (i : Nat) : Word := x.toList.getD i Word.zero

/-- A key RAM holding a list of words from index 0 on and zero words above (40_key_schedule.md R118, R124). -/
def Schedule.ofWords (ws : List Word) : Schedule := Vector.ofFn fun i => ws.getD i.val Word.zero

/-- Round key `r` of a schedule: its words `4r .. 4r+3` (40_key_schedule.md R119; 10_state.md R24). -/
def Schedule.roundKey (x : Schedule) (r : Nat) : Block :=
  ⟨x.word (4 * r), x.word (4 * r + 1), x.word (4 * r + 2), x.word (4 * r + 3)⟩

/-- `respond(OK, dout)`, with the extra word of `RDSTAT`: the command ends with code 0, its payload consumed, the registers
as the command leaves them (00_scope.md R18; 30_encoding.md R92). -/
def State.respond (s : State) (regs : Regs) (dout : List Byte) (extra : Option CmdWord) : State :=
  { s with regs := regs, din := [], responses := s.responses ++ [⟨okWord, dout, extra⟩] }

/-- `raise E`, the engine's whole "trap entry" (60_exceptions.md R255, R271): the status word carries E's code, there is no
output, no register is written and nothing is saved. Codes 1 to 5 come after the payload has been consumed; code 6
consumes none (R256). There is no return from it: the engine goes on to the next command (R272). -/
def State.raise (s : State) (e : Err) : State :=
  { s with din := if e = .invalidCommand then s.din else [], responses := s.responses ++ [⟨e.word, [], none⟩] }

/-- The payload of a request that declares `n` bytes. With any other number of bytes there is no move (20_memory.md R54). -/
def withPayload (n : Nat) (s : State) (k : List Byte → State) : Host.Outcome State Fault Refusal :=
  if s.din.length = n then .next (k s.din) else .fault .payloadLength

/-- An illegal word is answered from the word alone, in both lifecycle states (30_encoding.md R88; 60_exceptions.md R265). It
declares no payload (30_encoding.md R86), so a request that brings one with it has no move (20_memory.md R54). -/
def answerIllegal (s : State) : Host.Outcome State Fault Refusal :=
  withPayload 0 s fun _ => s.raise .invalidCommand

/-- What the command port has for the engine. -/
inductive Fetched where
  /-- No request: the engine waits. -/
  | idle
  /-- A request behind bytes that no request brought (log entry 3). -/
  | surplus
  /-- An illegal word, with what came with it on the data-in stream. -/
  | illegal (s : State)
  /-- A command, with its payload on the data-in stream. -/
  | command (i : Instr) (s : State)
deriving DecidableEq, Repr

/-- Take the oldest request: its payload stands on the data-in stream, and its word is decoded (20_memory.md R54, R63). -/
def fetch (s : State) : Fetched :=
  match s.requests with
  | [] => .idle
  | r :: rest =>
    if s.din.isEmpty then
      match decode r.word with
      | .error _ => .illegal { s with requests := rest, din := r.payload }
      | .ok i => .command i { s with requests := rest, din := r.payload }
    else .surplus

end Sys2Proof.Machine
end

