-- ==== Sys2Proof/Machine/BlockCore.lean ====
section
/-! DEFINITION. The block core (41_block_transform.md): the four forward operations, the four inverse ones, `Forward` and
`Inverse`. A block is four columns; row `r` of column `c` is byte `r + 4c`. -/

namespace Sys2Proof.Machine

/-- `AddRoundKey(B, K)` (R143). -/
def addRoundKey (B K : Block) : Block := B.xor K

/-- A function of bytes on the four bytes of a word. -/
def mapWord (f : Byte → Byte) (w : Word) : Word := ⟨f w.b0, f w.b1, f w.b2, f w.b3⟩

/-- A function of words on the four columns of a block. -/
def mapColumns (f : Word → Word) (B : Block) : Block := ⟨f B.c0, f B.c1, f B.c2, f B.c3⟩

/-- `SubBytes(B)` (R144). -/
def subBytes (B : Block) : Block := mapColumns (mapWord sbox) B

/-- `ShiftRows(B)`: row `r` of column `c` comes from column `c + r` (R145). -/
def shiftRows (B : Block) : Block :=
  ⟨⟨B.c0.b0, B.c1.b1, B.c2.b2, B.c3.b3⟩, ⟨B.c1.b0, B.c2.b1, B.c3.b2, B.c0.b3⟩,
   ⟨B.c2.b0, B.c3.b1, B.c0.b2, B.c1.b3⟩, ⟨B.c3.b0, B.c0.b1, B.c1.b2, B.c2.b3⟩⟩

/-- `MixColumn` on one column (R146). -/
def mixColumn (a : Word) : Word :=
  ⟨gmul a.b0 2 ^^^ gmul a.b1 3 ^^^ a.b2 ^^^ a.b3,
   a.b0 ^^^ gmul a.b1 2 ^^^ gmul a.b2 3 ^^^ a.b3,
   a.b0 ^^^ a.b1 ^^^ gmul a.b2 2 ^^^ gmul a.b3 3,
   gmul a.b0 3 ^^^ a.b1 ^^^ a.b2 ^^^ gmul a.b3 2⟩

/-- `MixColumns(B)` (R147). -/
def mixColumns (B : Block) : Block := mapColumns mixColumn B

/-- `InvSubBytes(B)` (R150). -/
def invSubBytes (B : Block) : Block := mapColumns (mapWord invSbox) B

/-- `InvShiftRows(B)`: row `r` of column `c` comes from column `c - r` (R151). -/
def invShiftRows (B : Block) : Block :=
  ⟨⟨B.c0.b0, B.c3.b1, B.c2.b2, B.c1.b3⟩, ⟨B.c1.b0, B.c0.b1, B.c3.b2, B.c2.b3⟩,
   ⟨B.c2.b0, B.c1.b1, B.c0.b2, B.c3.b3⟩, ⟨B.c3.b0, B.c2.b1, B.c1.b2, B.c0.b3⟩⟩

/-- `InvMixColumn` on one column (R152). -/
def invMixColumn (a : Word) : Word :=
  ⟨gmul a.b0 0x0e ^^^ gmul a.b1 0x0b ^^^ gmul a.b2 0x0d ^^^ gmul a.b3 0x09,
   gmul a.b0 0x09 ^^^ gmul a.b1 0x0e ^^^ gmul a.b2 0x0b ^^^ gmul a.b3 0x0d,
   gmul a.b0 0x0d ^^^ gmul a.b1 0x09 ^^^ gmul a.b2 0x0e ^^^ gmul a.b3 0x0b,
   gmul a.b0 0x0b ^^^ gmul a.b1 0x0d ^^^ gmul a.b2 0x09 ^^^ gmul a.b3 0x0e⟩

/-- `InvMixColumns(B)` (R153). -/
def invMixColumns (B : Block) : Block := mapColumns invMixColumn B

/-- One full round of `Forward` with a round key (R160, R162). -/
def forwardRound (K S : Block) : Block := addRoundKey (mixColumns (shiftRows (subBytes S))) K

/-- The state after rounds `1 .. n` of `Forward`, from the state `S` before round 1 (R160). -/
def forwardRounds (ek : Schedule) : Nat → Block → Block
  | 0, S => S
  | n + 1, S => forwardRound (ek.roundKey (n + 1)) (forwardRounds ek n S)

/-- `Forward(B)` with `nr` rounds over the forward schedule (R160). -/
def forward (nr : Nat) (ek : Schedule) (B : Block) : Block :=
  addRoundKey (shiftRows (subBytes (forwardRounds ek (nr - 1) (addRoundKey B (ek.roundKey 0))))) (ek.roundKey nr)

/-- One full round of `Inverse` with a round key of the inverse schedule (R166). -/
def inverseRound (K S : Block) : Block := addRoundKey (invMixColumns (invShiftRows (invSubBytes S))) K

/-- Rounds `n` down to `1` of `Inverse` (R166). -/
def inverseRounds (dk : Schedule) : Nat → Block → Block
  | 0, S => S
  | n + 1, S => inverseRounds dk n (inverseRound (dk.roundKey (n + 1)) S)

/-- `Inverse(B)` with `nr` rounds over the inverse schedule (R166). -/
def inverse (nr : Nat) (dk : Schedule) (B : Block) : Block :=
  addRoundKey (invShiftRows (invSubBytes (inverseRounds dk (nr - 1) (addRoundKey B (dk.roundKey nr))))) (dk.roundKey 0)

/-- One loop pass of the direct inverse with a round key of the forward schedule (R167). -/
def directRound (K S : Block) : Block := invMixColumns (addRoundKey (invSubBytes (invShiftRows S)) K)

/-- Loop passes `n` down to `1` of the direct inverse (R167). -/
def directRounds (ek : Schedule) : Nat → Block → Block
  | 0, S => S
  | n + 1, S => directRounds ek n (directRound (ek.roundKey (n + 1)) S)

/-- The direct inverse with `nr` rounds over the forward schedule (R167). No command uses it: it is the alternative that
R168 says is equal. -/
def directInverse (nr : Nat) (ek : Schedule) (B : Block) : Block :=
  addRoundKey (invSubBytes (invShiftRows (directRounds ek (nr - 1) (addRoundKey B (ek.roundKey nr))))) (ek.roundKey 0)

end Sys2Proof.Machine
end

