-- ==== Sys2Proof/Machine/KeySchedule.lean ====
section
/-! DEFINITION. The key scheduler (40_key_schedule.md): `KeyExpansion` for Nk = 4, 6, 8 and the inverse schedule. -/

namespace Sys2Proof.Machine

/-- `keyword(key, i)`: key bytes `4i .. 4i+3` (R112). -/
def keyword (key : List Byte) (i : Nat) : Word := wordAt key (4 * i)

/-- `SubWord` (R113). -/
def subWord (w : Word) : Word := mapWord sbox w

/-- `RotWord` (R114). -/
def rotWord (w : Word) : Word := ⟨w.b1, w.b2, w.b3, w.b0⟩

/-- `rc(j)` for `j ≥ 1`: `x^(j-1)` (R115). -/
def rc : Nat → Byte
  | 0 => 0x01
  | 1 => 0x01
  | j + 2 => xtime (rc (j + 1))

/-- `Rcon(j)` (R115). -/
def rcon (j : Nat) : Word := ⟨rc j, 0, 0, 0⟩

/-- Which step makes the word at an index (R116). -/
inductive StepKind where
  | full | sub | none
deriving DecidableEq, Repr

/-- `kind(i, Nk)` (R116). -/
def stepKind (i nk : Nat) : StepKind :=
  if i % nk = 0 then .full else if nk = 8 ∧ i % 8 = 4 then .sub else .none

/-- `g(i, Nk, p)`, the transformed previous word (R117). -/
def stepWord (i nk : Nat) (p : Word) : Word :=
  match stepKind i nk with
  | .full => (subWord (rotWord p)).xor (rcon (i / nk))
  | .sub => subWord p
  | .none => p

/-- The schedule words `w[0 .. Nk+n-1]`: the key words, then `n` words by the recurrence (R118). -/
def expandWords (nk : Nat) (key : List Byte) : Nat → List Word
  | 0 => (List.range nk).map (keyword key)
  | n + 1 =>
    let w := expandWords nk key n
    let i := nk + n
    w ++ [(w.getD (i - nk) Word.zero).xor (stepWord i nk (w.getD (i - 1) Word.zero))]

/-- `EK` after `KeyExpansion(key)`: `NW` words, zero words above (R118). -/
def expandKey (k : KeyWords) (key : List Byte) : Schedule :=
  Schedule.ofWords (expandWords k.words key (k.scheduleWords - k.words))

/-- `InvMixWord` (R123), the same function as `InvMixColumn` (41_block_transform.md R152). -/
def invMixWord (w : Word) : Word := invMixColumn w

/-- `dw[i]` of the inverse schedule, for `nr` rounds (R124). -/
def invScheduleWord (nr : Nat) (ek : Schedule) (i : Nat) : Word :=
  if 4 ≤ i ∧ i < 4 * nr then invMixWord (ek.word i) else ek.word i

/-- `DK` after `InvSchedule`: `NW` words, zero words above (R124). -/
def invSchedule (k : KeyWords) (ek : Schedule) : Schedule :=
  Schedule.ofWords ((List.range k.scheduleWords).map (invScheduleWord k.rounds ek))

end Sys2Proof.Machine
end

