-- ==== Sys2Proof/Machine/ModeEngine.lean ====
section
/-! DEFINITION. The mode engine (42_mode_engine.md): ECB and CBC on whole blocks, CFB, OFB and CTR byte by byte, and the two
data commands `ENC` and `DEC`. -/

namespace Sys2Proof.Machine

/-- `Nr` of the session (10_state.md R20). -/
def Regs.nr (r : Regs) : Nat := r.nk.rounds

/-- `Forward` under the session's key (41_block_transform.md R160). -/
def Regs.forward (r : Regs) (B : Block) : Block := Machine.forward r.nr r.ek B

/-- `Inverse` under the session's key (41_block_transform.md R166). -/
def Regs.inverse (r : Regs) (B : Block) : Block := Machine.inverse r.nr r.dk B

/-- The direction of a data command. -/
inductive Dir where
  | enc | dec
deriving DecidableEq, Repr

/-- The whole blocks of a payload, `n = LEN/16` of them (42_mode_engine.md section 2). -/
def payloadBlocks (din : List Byte) : List Block := blocksOf (din.length / 16) din

/-- `EcbEnc` (R184). -/
def ecbEnc (r : Regs) (din : List Byte) : List Byte := bytesOf ((payloadBlocks din).map r.forward)

/-- `EcbDec` (R185). -/
def ecbDec (r : Regs) (din : List Byte) : List Byte := bytesOf ((payloadBlocks din).map r.inverse)

/-- The blocks `CbcEnc` gives from a chaining value, and the chaining value it leaves (R186). -/
def cbcEncBlocks (r : Regs) : Block → List Block → List Block × Block
  | chain, [] => ([], chain)
  | chain, P :: Ps =>
    let C := r.forward (P.xor chain)
    let rest := cbcEncBlocks r C Ps
    (C :: rest.1, rest.2)

/-- The blocks `CbcDec` gives from a chaining value, and the chaining value it leaves: the input block (R187). -/
def cbcDecBlocks (r : Regs) : Block → List Block → List Block × Block
  | chain, [] => ([], chain)
  | chain, C :: Cs =>
    let rest := cbcDecBlocks r C Cs
    ((r.inverse C).xor chain :: rest.1, rest.2)

/-- `CbcEnc` (R186). -/
def cbcEnc (r : Regs) (din : List Byte) : List Byte × Regs :=
  let out := cbcEncBlocks r r.chain (payloadBlocks din)
  (bytesOf out.1, { r with chain := out.2 })

/-- `CbcDec` (R187). -/
def cbcDec (r : Regs) (din : List Byte) : List Byte × Regs :=
  let out := cbcDecBlocks r r.chain (payloadBlocks din)
  (bytesOf out.1, { r with chain := out.2 })

/-- `Inc128(B)`, wrapping modulo 2^128 (R198). -/
def inc128 (B : Block) : Block := blk128 ((be128 B + 1) % 2 ^ 128)

/-- `NextKeystream()` (R192). The block modes never call it. -/
def nextKeystream (r : Regs) : Regs :=
  let K := r.forward r.chain
  match r.mode with
  | .ofb => { r with ks := K, chain := K, pos := 0 }
  | .ctr => { r with ks := K, chain := inc128 r.chain, pos := 0 }
  | .cfb => { r with ks := K, pos := 0 }
  | .ecb => { r with ks := K, pos := 0 }
  | .cbc => { r with ks := K, pos := 0 }

/-- `POS + 1`, at most 16. -/
def nextPos (pos : Fin 17) : Fin 17 := ⟨min (pos.val + 1) 16, by omega⟩

/-- What CFB writes into `CHAIN[POS]`: always the ciphertext byte, output when encrypting, input when decrypting (R195). -/
def feedbackByte (dir : Dir) (input output : Byte) : Byte :=
  match dir with
  | .enc => output
  | .dec => input

/-- The loop body of `Stream` on one input byte: the output byte and the registers after it (R190). -/
def streamByte (dir : Dir) (r : Regs) (b : Byte) : Byte × Regs :=
  let r := if r.pos = 16 then nextKeystream r else r
  let o := b ^^^ r.ks.byte r.pos.val
  let chain := if r.mode = .cfb then r.chain.setByte r.pos.val (feedbackByte dir b o) else r.chain
  (o, { r with chain := chain, pos := nextPos r.pos })

/-- `Stream(din, dir)` (R190). -/
def stream (dir : Dir) : Regs → List Byte → List Byte × Regs
  | r, [] => ([], r)
  | r, b :: bs =>
    let first := streamByte dir r b
    let rest := stream dir first.2 bs
    (first.1 :: rest.1, rest.2)

/-- The mode dispatch of `ENC` (R181): the output payload and the registers after it. -/
def encrypt (r : Regs) (din : List Byte) : List Byte × Regs :=
  match r.mode with
  | .ecb => (ecbEnc r din, r)
  | .cbc => cbcEnc r din
  | .cfb => stream .enc r din
  | .ofb => stream .enc r din
  | .ctr => stream .enc r din

/-- The mode dispatch of `DEC` (R182): the output payload and the registers after it. -/
def decrypt (r : Regs) (din : List Byte) : List Byte × Regs :=
  match r.mode with
  | .ecb => (ecbDec r din, r)
  | .cbc => cbcDec r din
  | .cfb => stream .dec r din
  | .ofb => stream .dec r din
  | .ctr => stream .dec r din

/-- What `ENC` and `DEC` check, in this order: a session, then the alignment of `LEN` in a block mode
(60_exceptions.md R263, R264, R268). -/
def dataError (r : Regs) (len : Nat) : Option Err :=
  if r.valid = false then some .noSession
  else if r.mode.isBlock = true ∧ len % 16 ≠ 0 then some .unalignedBuffer
  else none

/-- `ENC` (R181). -/
def execEnc (len : Nat) (s : State) : Host.Outcome State Fault Refusal :=
  withPayload len s fun din =>
    match dataError s.regs len with
    | some e => s.raise e
    | none => s.respond (encrypt s.regs din).2 (encrypt s.regs din).1 none

/-- `DEC` (R182). -/
def execDec (len : Nat) (s : State) : Host.Outcome State Fault Refusal :=
  withPayload len s fun din =>
    match dataError s.regs len with
    | some e => s.raise e
    | none => s.respond (decrypt s.regs din).2 (decrypt s.regs din).1 none

end Sys2Proof.Machine
end

