-- ==== Sys2Proof/Machine/Session.lean ====
section
/-! DEFINITION. The session commands (43_session_commands.md): `INIT`, `RESET`, `ZEROIZE`, `RDSTAT`. -/

namespace Sys2Proof.Machine

/-- What `INIT` checks, in this order: the key length, the mode, the IV (43_session_commands.md R221; 60_exceptions.md R267). -/
def checkInit (mode klen ivlen : Nat) : Except Err (Mode × KeyWords) :=
  match KeyWords.ofKlen klen with
  | none => .error .invalidKeyLength
  | some k =>
    match Mode.ofCode mode with
    | none => .error .invalidMode
    | some m => if m ≠ .ecb ∧ ivlen ≠ 16 then .error .missingOrInvalidIV else .ok (m, k)

/-- The registers of a new session (R221); for ECB the IV is 16 zero bytes (R223). -/
def newSession (m : Mode) (k : KeyWords) (key : List Byte) (iv : Block) : Regs :=
  let ek := expandKey k key
  let iv0 := if m = .ecb then Block.zero else iv
  { valid := true, mode := m, nk := k, ek := ek, dk := invSchedule k ek, iv0 := iv0, chain := iv0,
    ks := Block.zero, pos := 16 }

/-- `INIT` (R221 to R225). -/
def execInit (mode klen ivlen : Nat) (s : State) : Host.Outcome State Fault Refusal :=
  withPayload (klen + ivlen) s fun din =>
    match checkInit mode klen ivlen with
    | .error e => s.raise e
    | .ok (m, k) => s.respond (newSession m k (keyOperand klen din) (ivOperand klen din)) [] none

/-- The chaining state back to the IV: `CHAIN`, `KS`, `POS` and nothing else (R230). -/
def rewind (r : Regs) : Regs := { r with chain := r.iv0, ks := Block.zero, pos := 16 }

/-- `RESET` (R230). -/
def execReset (s : State) : Host.Outcome State Fault Refusal :=
  withPayload 0 s fun _ => if s.regs.valid = false then s.raise .noSession else s.respond (rewind s.regs) [] none

/-- Every register cleared (R235). -/
def cleared : Regs :=
  { valid := false, mode := .ecb, nk := .k0, ek := Schedule.ofWords [], dk := Schedule.ofWords [],
    iv0 := Block.zero, chain := Block.zero, ks := Block.zero, pos := 16 }

/-- `ZEROIZE` (R235). -/
def execZeroize (s : State) : Host.Outcome State Fault Refusal :=
  withPayload 0 s fun _ => s.respond cleared [] none

/-- `RDSTAT` (R240). -/
def execRdstat (s : State) : Host.Outcome State Fault Refusal :=
  withPayload 0 s fun _ => s.respond s.regs [] (some s.regs.status)

end Sys2Proof.Machine
end

