-- ==== Sys2Proof/Machine/Dispatch.lean ====
section
/-! DEFINITION. Every command to its meaning. -/

namespace Sys2Proof.Machine

/-- The meaning of a command whose payload stands on the data-in stream. -/
def exec (i : Instr) (s : State) : Host.Outcome State Fault Refusal :=
  match i with
  | .init mode klen ivlen => Sys2Proof.Machine.execInit mode klen ivlen s
  | .enc len => Sys2Proof.Machine.execEnc len s
  | .dec len => Sys2Proof.Machine.execDec len s
  | .reset => Sys2Proof.Machine.execReset s
  | .zeroize => Sys2Proof.Machine.execZeroize s
  | .rdstat => Sys2Proof.Machine.execRdstat s

end Sys2Proof.Machine
end

