-- ==== Sys2Proof/Machine/Step.lean ====
section
/-! DEFINITION. One step of the machine: one command, taken from the port and run to completion (20_memory.md R63, R66). -/

namespace Sys2Proof.Machine

/-- One step. With no request the engine waits, all state kept (70_reset_and_hazards.md R290; 60_exceptions.md R280). -/
def step (s : State) : Host.Outcome State Fault Refusal :=
  match fetch s with
  | .idle => .next s
  | .surplus => .fault .surplusInput
  | .illegal t => answerIllegal t
  | .command i t => exec i t

/-- The host's next request is the command word of a row of the opcode table, with a payload of zero bytes of exactly the
length that word declares, and nothing is left over on the data-in stream (log entry 6). -/
def State.withFetchWord (s : State) (nbits w : Nat) : State :=
  { s with
    requests := ⟨tableWord nbits w, List.replicate (paylen (tableWord nbits w)) 0⟩ :: s.requests
    din := [] }

end Sys2Proof.Machine
end

