-- ==== Sys2Proof/Safety.lean ====
section
/-! DEFINITION. The terms in which claims about the machine are made: the invariant of 10_state.md R32, a session just after
`INIT` or `RESET`, the one-byte step of the stream modes as a relation, requests as a host sends them, and the keys and the IV of
the spec's worked examples. -/

namespace Sys2Proof.Machine

/-- The raw key, held as the first `NK` words of `EK` (10_state.md R24; 40_key_schedule.md R127). -/
def Regs.keyBytes (r : Regs) : List Byte := (List.range r.nk.words).flatMap fun i => (r.ek.word i).bytes

/-- `KS` comes from the value `CHAIN` had when the block in progress began (10_state.md R32 (f)), and `CHAIN` is what the
mode has made of that value since: the keystream block (OFB), its increment (CTR), itself with the first `POS` bytes replaced
(CFB, R27). -/
def Regs.keystreamOf (r : Regs) (begun : Block) : Prop :=
  r.ks = r.forward begun ∧
    match r.mode with
    | .ofb => r.chain = r.ks
    | .ctr => r.chain = inc128 begun
    | .cfb => ∀ j, r.pos.val ≤ j → j < 16 → r.chain.byte j = begun.byte j
    | .ecb => True
    | .cbc => True

/-- The invariant of 10_state.md R32, clause by clause. -/
structure Regs.Inv (r : Regs) : Prop where
  /-- (a) an Empty engine holds the power-on values. -/
  empty : r.valid = false → r = Regs.powerOn
  /-- (b) an Active engine has a legal key length, and both schedules come from its key, with zero words above them. -/
  active : r.valid = true →
    r.nk ≠ .k0 ∧ r.ek = expandKey r.nk r.keyBytes ∧ r.dk = invSchedule r.nk r.ek
  /-- (c) the block modes hold no keystream. -/
  block : r.mode.isBlock = true → r.pos = 16 ∧ r.ks = Block.zero
  /-- (d) ECB has no chaining state. -/
  ecb : r.mode = .ecb → r.iv0 = Block.zero ∧ r.chain = Block.zero
  /-- (e) at most 16 keystream bytes are used. -/
  pos : r.pos.val ≤ 16
  /-- (f) a stream mode inside a block holds that block's keystream. -/
  keystream : r.mode.isBlock = false → r.pos.val < 16 → ∃ begun, r.keystreamOf begun

/-- The session registers are as `INIT` and `RESET` leave them (43_session_commands.md R221, R230). -/
def Regs.Fresh (r : Regs) : Prop := r.chain = r.iv0 ∧ r.ks = Block.zero ∧ r.pos = 16

/-- A response as 30_encoding.md R91 and R92 allow it: code 0, or an error's code with nothing after it. -/
def Response.Legal (r : Response) : Prop := r.status = okWord ∨ ∃ e : Err, r = ⟨e.word, [], none⟩

/-- Block `i` of a payload (20_memory.md R58). -/
def blockAt (bs : List Byte) (i : Nat) : Block := Block.ofBytes (bs.drop (16 * i))

/-- `exec i s` answers OK with output `out` and leaves the registers `regs`, and changes nothing else but the ports. -/
def AnswersOk (i : Instr) (s : State) (out : List Byte) (regs : Regs) : Prop :=
  exec i s = .next { s with regs := regs, din := [], responses := s.responses ++ [⟨okWord, out, none⟩] }

/-- `exec i s` is rejected with `e`: the status word carries its code, no register is written. -/
def AnswersError (i : Instr) (s : State) (e : Err) : Prop :=
  exec i s = .next { s with din := [], responses := s.responses ++ [⟨e.word, [], none⟩] }

/-- The data command of a direction. -/
def Dir.command : Dir → Nat → Instr
  | .enc => .enc
  | .dec => .dec

/-- One pass of the loop of 42_mode_engine.md R190, with R192 and R195, as a relation between the registers before, the
input byte, the output byte and the registers after. `K`, `C`, `p` are `KS`, `CHAIN`, `POS` after the keystream step, which
happens only at `POS = 16`. -/
def ByteStep (dir : Dir) (r : Regs) (input output : Byte) (r' : Regs) : Prop :=
  ∃ (K C : Block) (p : Nat),
    (r.pos.val = 16 → K = r.forward r.chain ∧ p = 0 ∧
      (r.mode = .ofb → C = K) ∧ (r.mode = .ctr → C = inc128 r.chain) ∧ (r.mode = .cfb → C = r.chain)) ∧
    (r.pos.val < 16 → K = r.ks ∧ p = r.pos.val ∧ C = r.chain) ∧
    output = input ^^^ K.byte p ∧
    r'.ks = K ∧ r'.pos.val = p + 1 ∧
    (r.mode ≠ .cfb → r'.chain = C) ∧
    (r.mode = .cfb → dir = .enc → r'.chain = C.setByte p output) ∧
    (r.mode = .cfb → dir = .dec → r'.chain = C.setByte p input) ∧
    r'.valid = r.valid ∧ r'.mode = r.mode ∧ r'.nk = r.nk ∧ r'.ek = r.ek ∧ r'.dk = r.dk ∧ r'.iv0 = r.iv0

/-- The counter and the position after `t` bytes since `INIT` or `RESET` (42_mode_engine.md R203). -/
def Regs.CtrProgress (r : Regs) (t : Nat) : Prop :=
  be128 r.chain = (be128 r.iv0 + (t + 15) / 16) % 2 ^ 128 ∧ r.pos.val = if t % 16 = 0 then 16 else t % 16

/-- A data command as the host sends it. -/
def dataRequest (dir : Dir) (payload : List Byte) : Request := ⟨encode (dir.command payload.length), payload⟩

/-- What 30_encoding.md R88 calls an illegal command word. -/
def IllegalWord (cw : CmdWord) : Prop :=
  bits cw 31 28 = 0 ∨ 7 ≤ bits cw 31 28 ∨
    (bits cw 31 28 = 1 ∧ bits cw 7 0 ≠ 0) ∨
    ((bits cw 31 28 = 2 ∨ bits cw 31 28 = 3) ∧ bits cw 27 24 ≠ 0) ∨
    ((bits cw 31 28 = 4 ∨ bits cw 31 28 = 5 ∨ bits cw 31 28 = 6) ∧ bits cw 27 0 ≠ 0)

/-- The `n` bytes of a number, most significant first: how the spec writes keys, IVs and blocks (00_scope.md R15). -/
def bytesBE (n x : Nat) : List Byte := (List.range n).map fun i => BitVec.ofNat 8 (x / 256 ^ (n - 1 - i))

/-- The 16-byte key of the spec's worked examples (40_key_schedule.md R118). -/
def exampleKey128 : Nat := 0x2b7e151628aed2a6abf7158809cf4f3c

/-- The 24-byte key of the spec's worked examples (42_mode_engine.md R194, R196). -/
def exampleKey192 : Nat := 0x8e73b0f7da0e6452c810f32b809079e562f8ead2522c6b7b

/-- The 32-byte key of the spec's worked examples (42_mode_engine.md R193). -/
def exampleKey256 : Nat := 0x603deb1015ca71be2b73aef0857d77811f352c073b6108d72d9810a30914dff4

/-- The IV of the spec's worked examples. -/
def exampleIV : Nat := 0x000102030405060708090a0b0c0d0e0f

/-- The machine after power-on reset, with a payload offered to the command it is about to run. -/
def State.offered (payload : List Byte) : State := { State.reset with din := payload }

/-- The first block of a new session: under `key` and `iv` the data command of `dir` turns `input` into `output`, leaving
`CHAIN = chain`, `KS = ks` and every other register as it was (all numbers as the spec writes bytes). -/
def FirstBlock (dir : Dir) (m : Mode) (k : KeyWords) (key iv input output chain ks : Nat) : Prop :=
  let r := newSession m k (bytesBE (4 * k.words) key) (blk128 iv)
  AnswersOk (dir.command 16) { State.offered (bytesBE 16 input) with regs := r } (bytesBE 16 output)
    { r with chain := blk128 chain, ks := blk128 ks }

end Sys2Proof.Machine
end

