-- ==== Sys2Proof/Certificates/Slice0/Obligations.lean ====
section
/-! DEFINITION. The statements about the machine, from the numbered rules of the spec. -/

open Sys2Proof Sys2Proof.Machine

/-! ## Encoding -/

/-- 30_encoding.md section 6, the table of R94 (which the spec marks as derived from R82 to R84): each word written out there
decodes to the command it stands for and declares the payload length given beside it. -/
def Obligations.ListedWordsDecode : Prop :=
  decode 0x10100000 = .ok (.init 0 16 0) ∧ paylen 0x10100000 = 16 ∧
  decode 0x10200000 = .ok (.init 0 32 0) ∧ paylen 0x10200000 = 32 ∧
  decode 0x11101000 = .ok (.init 1 16 16) ∧ paylen 0x11101000 = 32 ∧
  decode 0x12181000 = .ok (.init 2 24 16) ∧ paylen 0x12181000 = 40 ∧
  decode 0x13201000 = .ok (.init 3 32 16) ∧ paylen 0x13201000 = 48 ∧
  decode 0x14181000 = .ok (.init 4 24 16) ∧ paylen 0x14181000 = 40 ∧
  decode 0x100F0000 = .ok (.init 0 15 0) ∧ paylen 0x100F0000 = 15 ∧
  decode 0x20000010 = .ok (.enc 16) ∧ paylen 0x20000010 = 16 ∧
  decode 0x20000011 = .ok (.enc 17) ∧ paylen 0x20000011 = 17 ∧
  decode 0x30000040 = .ok (.dec 64) ∧ paylen 0x30000040 = 64 ∧
  decode 0x20000000 = .ok (.enc 0) ∧ paylen 0x20000000 = 0 ∧
  decode 0x40000000 = .ok .reset ∧ paylen 0x40000000 = 0 ∧
  decode 0x50000000 = .ok .zeroize ∧ paylen 0x50000000 = 0 ∧
  decode 0x60000000 = .ok .rdstat ∧ paylen 0x60000000 = 0

/-- 30_encoding.md section 4 (R90, which the spec marks as derived): a word is one of the six commands exactly when it agrees
with that command's match value under its mask, and is illegal exactly when it agrees with none. -/
def Obligations.MaskAndMatchDecide : Prop :=
  ∀ w : CmdWord,
    ((∃ m k v, decode w = .ok (.init m k v)) ↔ w &&& 0xF00000FF = 0x10000000) ∧
    ((∃ n, decode w = .ok (.enc n)) ↔ w &&& 0xFF000000 = 0x20000000) ∧
    ((∃ n, decode w = .ok (.dec n)) ↔ w &&& 0xFF000000 = 0x30000000) ∧
    (decode w = .ok .reset ↔ w &&& 0xFFFFFFFF = 0x40000000) ∧
    (decode w = .ok .zeroize ↔ w &&& 0xFFFFFFFF = 0x50000000) ∧
    (decode w = .ok .rdstat ↔ w &&& 0xFFFFFFFF = 0x60000000) ∧
    ((∃ e, decode w = .error e) ↔
      w &&& 0xF00000FF ≠ 0x10000000 ∧ w &&& 0xFF000000 ≠ 0x20000000 ∧ w &&& 0xFF000000 ≠ 0x30000000 ∧
      w &&& 0xFFFFFFFF ≠ 0x40000000 ∧ w &&& 0xFFFFFFFF ≠ 0x50000000 ∧ w &&& 0xFFFFFFFF ≠ 0x60000000)

/-- 30_encoding.md sections 1 and 3: for every command whose fields fit their bits, the decoder reads back from its word
exactly that command, every field at its value. -/
def Obligations.DecodeOfEncode : Prop :=
  ∀ i : Instr, i.wf = true → decode (encode i) = .ok i

/-- 30_encoding.md sections 1 and 4: every word that decodes is the word of the command it decodes to, whose fields fit
their bits, so no two words stand for one command. -/
def Obligations.EncodeOfDecode : Prop :=
  ∀ (w : CmdWord) (i : Instr), decode w = .ok i → i.wf = true ∧ encode i = w

/-- R86: `paylen` from the fields as they stand, whatever their values, for a word that is not illegal, and no byte for an
illegal word; a command that completes, accepted or rejected, has consumed exactly that many bytes. -/
def Obligations.PayloadLengthOfEveryWord : Prop :=
  ∀ w : CmdWord,
    (IllegalWord w → paylen w = 0) ∧
    (¬ IllegalWord w →
      paylen w =
        if bits w 31 28 = 1 then bits w 23 16 + bits w 15 8
        else if bits w 31 28 = 2 ∨ bits w 31 28 = 3 then bits w 23 0
        else 0) ∧
    (∀ (i : Instr) (s t : State), decode w = .ok i → exec i s = .next t → s.din.length = paylen w ∧ t.din = [])

/-! ## The step -/

/-- 20_memory.md section 5 and 10_state.md section 2: the oldest request whose word decodes to a command is taken, its payload
stands on the data-in stream, and the step is the command's meaning there. With no request the engine waits, all its state kept
(deduced, log entry 4). Any request behind bytes that no request brought has no move (the model's choice, log entry 3). -/
def Obligations.StepRunsTheDecodedCommand : Prop :=
  (∀ (s : State) (r : Request) (rest : List Request) (i : Instr),
    s.requests = r :: rest → s.din = [] → decode r.word = .ok i →
      step s = exec i { s with requests := rest, din := r.payload }) ∧
  (∀ s : State, s.requests = [] → step s = .next s) ∧
  (∀ (s : State) (r : Request) (rest : List Request),
    s.requests = r :: rest → s.din ≠ [] → step s = .fault .surplusInput)

/-- R88 and R265: a word is illegal exactly when R88 says so, and an illegal one is answered with `InvalidCommand`, code 6, from
the word alone, in both lifecycle states: nothing but the response and the port changes. It declares no payload byte and none is
consumed; one that is sent with bytes is WrongPayloadLengthStops. -/
def Obligations.IllegalWordsAreAnsweredInvalidCommand : Prop :=
  (∀ w : CmdWord, IllegalWord w ↔ ∃ e, decode w = .error e) ∧
  (∀ (s : State) (w : CmdWord) (rest : List Request),
    s.requests = ⟨w, []⟩ :: rest → s.din = [] → IllegalWord w →
      step s = .next { s with requests := rest, responses := s.responses ++ [⟨6, [], none⟩] })

/-- 20_memory.md section 2 (R54) and 93_implementation_defined.md U13, U14: a request, its word legal or not, whose payload has
not exactly the declared length has no move, which the model gives as a named fault (log entry 2). -/
def Obligations.WrongPayloadLengthStops : Prop :=
  (∀ (i : Instr) (s : State), s.din.length ≠ i.paylen → exec i s = .fault .payloadLength) ∧
  (∀ (s : State) (r : Request) (rest : List Request),
    s.requests = r :: rest → s.din = [] → r.payload.length ≠ paylen r.word → step s = .fault .payloadLength)

/-- 70_reset_and_hazards.md sections 2 and 4 (R294, R310): with exactly the declared payload every command completes, consumes
it, and adds exactly one response to those given before. -/
def Obligations.EveryCommandGetsOneResponse : Prop :=
  ∀ (i : Instr) (s : State), s.din.length = i.paylen →
    ∃ (t : State) (r : Response), exec i s = .next t ∧ t.requests = s.requests ∧ t.din = [] ∧
      t.responses = s.responses ++ [r] ∧ r.Legal

/-! ## Errors -/

/-- R255: whatever command or word is rejected, the status word carries the code of one of the six errors, the output is empty
and no register is written. -/
def Obligations.RejectedCommandsWriteNoRegister : Prop :=
  ∀ (s t : State) (r : Response), step s = .next t → t.responses = s.responses ++ [r] → r.status ≠ okWord →
    t.regs = s.regs ∧ r.dout = [] ∧ r.extra = none ∧ ∃ e : Err, r.status = e.word

/-- R267: the checks of `INIT`, first hit wins, over every word with its opcode, sent with the payload it declares. -/
def Obligations.InitErrorPriority : Prop :=
  ∀ (s : State) (w : CmdWord) (payload : List Byte) (rest : List Request),
    s.requests = ⟨w, payload⟩ :: rest → s.din = [] → bits w 31 28 = 1 →
    payload.length = paylen w →
    ∃ (t : State) (r : Response), step s = .next t ∧ t.responses = s.responses ++ [r] ∧
      r.status =
        if bits w 7 0 ≠ 0 then 6
        else if bits w 23 16 ≠ 16 ∧ bits w 23 16 ≠ 24 ∧ bits w 23 16 ≠ 32 then 1
        else if 4 < bits w 27 24 then 2
        else if bits w 27 24 ≠ 0 ∧ bits w 15 8 ≠ 16 then 3
        else 0

/-- R268: the checks of `ENC`, `DEC`, `RESET`, `ZEROIZE` and `RDSTAT`, first hit wins, over every word with one of their
opcodes, sent with the payload it declares. -/
def Obligations.OtherCommandsErrorPriority : Prop :=
  ∀ (s : State) (w : CmdWord) (payload : List Byte) (rest : List Request),
    s.requests = ⟨w, payload⟩ :: rest → s.din = [] → payload.length = paylen w →
    ((bits w 31 28 = 2 ∨ bits w 31 28 = 3) →
      ∃ (t : State) (r : Response), step s = .next t ∧ t.responses = s.responses ++ [r] ∧
        r.status =
          if bits w 27 24 ≠ 0 then 6
          else if s.regs.valid = false then 5
          else if (s.regs.mode = .ecb ∨ s.regs.mode = .cbc) ∧ bits w 23 0 % 16 ≠ 0 then 4
          else 0) ∧
    (bits w 31 28 = 4 →
      ∃ (t : State) (r : Response), step s = .next t ∧ t.responses = s.responses ++ [r] ∧
        r.status = if bits w 27 0 ≠ 0 then 6 else if s.regs.valid = false then 5 else 0) ∧
    ((bits w 31 28 = 5 ∨ bits w 31 28 = 6) →
      ∃ (t : State) (r : Response), step s = .next t ∧ t.responses = s.responses ++ [r] ∧
        r.status = if bits w 27 0 ≠ 0 then 6 else 0)

/-- R266: a command that was rejected is rejected with the same response when it is sent again with the same payload. -/
def Obligations.RejectionRepeats : Prop :=
  ∀ (i : Instr) (s t : State) (r : Response), exec i s = .next t → t.responses = s.responses ++ [r] →
    r.status ≠ okWord →
    ∃ u : State, exec i { t with din := s.din } = .next u ∧ u.regs = s.regs ∧ u.responses = t.responses ++ [r]

/-! ## Session commands -/

/-- R221: a word with a reserved bit is no `INIT`; then, with exactly the declared payload, the three rejections in their order,
and the session built when every check passes, with every register as the rule's lines say; and the worked example. -/
def Obligations.InitBuildsTheSession : Prop :=
  (∀ w : CmdWord, bits w 31 28 = 1 →
    decode w = if bits w 7 0 = 0 then .ok (.init (bits w 27 24) (bits w 23 16) (bits w 15 8)) else .error .reservedBits) ∧
  (∀ (code klen ivlen : Nat) (s : State), s.din.length = klen + ivlen →
    (¬ (klen = 16 ∨ klen = 24 ∨ klen = 32) → AnswersError (.init code klen ivlen) s .invalidKeyLength) ∧
    ((klen = 16 ∨ klen = 24 ∨ klen = 32) → 4 < code → AnswersError (.init code klen ivlen) s .invalidMode) ∧
    ((klen = 16 ∨ klen = 24 ∨ klen = 32) → code ≤ 4 → code ≠ 0 → ivlen ≠ 16 →
      AnswersError (.init code klen ivlen) s .missingOrInvalidIV) ∧
    ((klen = 16 ∨ klen = 24 ∨ klen = 32) → code ≤ 4 → (code = 0 ∨ ivlen = 16) →
      ∃ regs : Regs, AnswersOk (.init code klen ivlen) s [] regs ∧
        regs.valid = true ∧ regs.mode.code = code ∧ regs.nk.words = klen / 4 ∧
        regs.ek = expandKey regs.nk (s.din.take klen) ∧ regs.dk = invSchedule regs.nk regs.ek ∧
        (code ≠ 0 → regs.iv0 = Block.ofBytes (s.din.drop klen)) ∧ (code = 0 → regs.iv0 = Block.zero) ∧
        regs.chain = regs.iv0 ∧ regs.ks = Block.zero ∧ regs.pos = 16)) ∧
  (decode 0x11101000 = .ok (.init 1 16 16) ∧
    ∃ regs : Regs,
      AnswersOk (.init 1 16 16) (State.offered (bytesBE 16 exampleKey128 ++ bytesBE 16 exampleIV)) [] regs ∧
      regs.ek.word 4 = ⟨0xa0, 0xfa, 0xfe, 0x17⟩ ∧ regs.ek.word 43 = ⟨0xb6, 0x63, 0x0c, 0xa6⟩ ∧
      (∀ i, 44 ≤ i → i ≤ 59 → regs.ek.word i = Word.zero) ∧
      regs.chain = blk128 exampleIV ∧ regs.pos = 16 ∧ regs.status = 0x00001043)

/-- 43_session_commands.md section 2 (R225, which the spec marks as derived): the registers after a successful `INIT` depend on
the mode, the key and, but for ECB, the IV alone, not on the state before. -/
def Obligations.InitForgetsThePast : Prop :=
  ∀ (code klen ivlen ivlen' : Nat) (s s' t t' : State) (rs rs' : Response),
    exec (.init code klen ivlen) s = .next t → t.responses = s.responses ++ [rs] → rs.status = okWord →
    exec (.init code klen ivlen') s' = .next t' → t'.responses = s'.responses ++ [rs'] → rs'.status = okWord →
    s.din.take klen = s'.din.take klen → (code ≠ 0 → s.din.drop klen = s'.din.drop klen) →
    t.regs = t'.regs

/-- R230: a word with a reserved bit is no `RESET`; on an Active engine `RESET` completes, `CHAIN` goes back to `IV0`, `KS` to
zero and `POS` to 16, every other register stays; on an Empty one it is `NoSession`. Two in a row equal one, and just after
`INIT` it changes nothing. -/
def Obligations.ResetRewindsTheSession : Prop :=
  (∀ w : CmdWord, bits w 31 28 = 4 → decode w = if bits w 27 0 = 0 then .ok .reset else .error .reservedBits) ∧
  (∀ s : State, s.din = [] →
    (s.regs.valid = true →
      AnswersOk .reset s [] { s.regs with chain := s.regs.iv0, ks := Block.zero, pos := 16 }) ∧
    (s.regs.valid = false → AnswersError .reset s .noSession) ∧
    (∀ t : State, exec .reset s = .next t → ∃ u : State, exec .reset t = .next u ∧ u.regs = t.regs)) ∧
  (∀ (s t : State) (code klen ivlen : Nat), exec (.init code klen ivlen) s = .next t →
    t.responses = s.responses ++ [⟨okWord, [], none⟩] →
    ∃ u : State, exec .reset t = .next u ∧ u.regs = t.regs)

/-- R235: a word with a reserved bit is no `ZEROIZE`; `ZEROIZE` completes in every state, and afterwards the registers are those
of the power-on reset: every word of both schedules and every byte of `IV0`, `CHAIN` and `KS` zero, whatever they held. -/
def Obligations.ZeroizeClearsEverything : Prop :=
  (∀ w : CmdWord, bits w 31 28 = 5 → decode w = if bits w 27 0 = 0 then .ok .zeroize else .error .reservedBits) ∧
  (∀ s : State, s.din = [] →
    ∃ regs : Regs, AnswersOk .zeroize s [] regs ∧ regs = State.reset.regs ∧
      regs.valid = false ∧ regs.mode = .ecb ∧ regs.nk = .k0 ∧
      (∀ i, i < 60 → regs.ek.word i = Word.zero ∧ regs.dk.word i = Word.zero) ∧
      regs.iv0 = Block.zero ∧ regs.chain = Block.zero ∧ regs.ks = Block.zero ∧ regs.pos = 16)

/-- R240 with the layout of R30: a word with a reserved bit is no `RDSTAT`; `RDSTAT` completes in both lifecycle states, writes no
register, and answers the word whose fields are `VALID`, `MODE`, `NK`, `POS`, with bits 31:13 zero; and the four examples. -/
def Obligations.RdstatReportsStatus : Prop :=
  (∀ w : CmdWord, bits w 31 28 = 6 → decode w = if bits w 27 0 = 0 then .ok .rdstat else .error .reservedBits) ∧
  (∀ s : State, s.din = [] →
    ∃ w : CmdWord,
      exec .rdstat s = .next { s with din := [], responses := s.responses ++ [⟨okWord, [], some w⟩] } ∧
      bits w 0 0 = s.regs.valid.toNat ∧ bits w 3 1 = s.regs.mode.code ∧ bits w 7 4 = s.regs.nk.words ∧
      bits w 12 8 = s.regs.pos.val ∧ bits w 31 13 = 0) ∧
  State.reset.regs.status = 0x00001000 ∧
  (∀ (key five : List Byte) (iv : Block), five.length = 5 →
    (newSession .ecb .k4 key iv).status = 0x00001041 ∧ (newSession .ofb .k8 key iv).status = 0x00001087 ∧
    (encrypt (newSession .ctr .k6 key iv) five).2.status = 0x00000569)

/-- 10_state.md section 4 and 92_eei_decisions.md D18: what `RDSTAT` answers is the same for any two engines that agree on
`VALID`, `MODE`, `NK` and `POS`: no key, IV, chaining or keystream byte shows in it. -/
def Obligations.RdstatHidesTheKey : Prop :=
  ∀ (s s' t t' : State) (r r' : Response), exec .rdstat s = .next t → exec .rdstat s' = .next t' →
    t.responses = s.responses ++ [r] → t'.responses = s'.responses ++ [r'] →
    s.regs.valid = s'.regs.valid → s.regs.mode = s'.regs.mode → s.regs.nk = s'.regs.nk → s.regs.pos = s'.regs.pos →
    r = r'

/-- R290: the machine right after power-on reset: every register at the value given there, `STATUS` `0x00001000`, no command in
progress, no response pending. -/
def Obligations.PowerOnValues : Prop :=
  State.reset.regs.valid = false ∧ State.reset.regs.mode = .ecb ∧ State.reset.regs.nk = .k0 ∧
  (∀ i, i < 60 → State.reset.regs.ek.word i = Word.zero ∧ State.reset.regs.dk.word i = Word.zero) ∧
  State.reset.regs.iv0 = Block.zero ∧ State.reset.regs.chain = Block.zero ∧ State.reset.regs.ks = Block.zero ∧
  State.reset.regs.pos = 16 ∧ State.reset.regs.status = 0x00001000 ∧
  State.reset.requests = [] ∧ State.reset.din = [] ∧ State.reset.responses = []

/-! ## Invariants and frames -/

/-- 10_state.md section 5 (R32, which the spec marks as derived) holds after power-on reset. -/
def Obligations.InvariantAtPowerOn : Prop := State.reset.regs.Inv

/-- 10_state.md section 5 (R32, which the spec marks as derived): whatever the host sends, a step from a state with the
invariant gives a state with it. -/
def Obligations.StepKeepsTheInvariant : Prop :=
  ∀ s t : State, s.regs.Inv → step s = .next t → t.regs.Inv

/-- 30_encoding.md section 5 (R91, R92) and 93_implementation_defined.md U11: every response ever given has code 0, or the code
of one of the six errors with nothing after it. That the responses before a step are a prefix of those after it is the model's
choice, not the spec's: it keeps every response for ever (log entry 5). -/
def Obligations.StepKeepsResponsesLegal : Prop :=
  ∀ s t : State, (∀ r ∈ s.responses, r.Legal) → step s = .next t →
    (∀ r ∈ t.responses, r.Legal) ∧ s.responses <+: t.responses

/-- 10_state.md section 7, the access table of R35 (which the spec marks as derived): what each command may write. `ENC` and
`DEC` write nothing in ECB, `CHAIN` alone in CBC, `CHAIN`, `KS` and `POS` in the stream modes; `RESET` those three; `RDSTAT`
nothing. -/
def Obligations.OnlyTheTableIsWritten : Prop :=
  ∀ (s t : State),
    (∀ (dir : Dir) (n : Nat), exec (dir.command n) s = .next t →
      (s.regs.mode = .ecb → t.regs = s.regs) ∧
      (s.regs.mode = .cbc → t.regs = { s.regs with chain := t.regs.chain }) ∧
      t.regs = { s.regs with chain := t.regs.chain, ks := t.regs.ks, pos := t.regs.pos }) ∧
    (exec .reset s = .next t →
      t.regs = { s.regs with chain := t.regs.chain, ks := t.regs.ks, pos := t.regs.pos }) ∧
    (exec .rdstat s = .next t → t.regs = s.regs)

/-- 10_state.md R24, R26 and 40_key_schedule.md R126: whatever the host sends, a step that is not an `INIT` or a `ZEROIZE` leaves
the key schedules, the mode, the key length and the IV as they were. -/
def Obligations.OnlyInitAndZeroizeTouchTheKey : Prop :=
  ∀ (s t : State) (r : Request) (rest : List Request), s.requests = r :: rest → step s = .next t →
    bits r.word 31 28 ≠ 1 → bits r.word 31 28 ≠ 5 →
    t.regs.ek = s.regs.ek ∧ t.regs.dk = s.regs.dk ∧ t.regs.iv0 = s.regs.iv0 ∧
    t.regs.valid = s.regs.valid ∧ t.regs.mode = s.regs.mode ∧ t.regs.nk = s.regs.nk

/-- 43_session_commands.md section 1, the lifecycle table of R220: whatever the host sends, an Empty engine becomes Active only by
an `INIT` answered with code 0, and an Active one Empty only by `ZEROIZE`. -/
def Obligations.OnlyInitStartsAndOnlyZeroizeEndsASession : Prop :=
  ∀ (s t : State) (r : Request) (rest : List Request), s.requests = r :: rest → step s = .next t →
    (s.regs.valid = false → t.regs.valid = true →
      bits r.word 31 28 = 1 ∧ t.responses = s.responses ++ [⟨okWord, [], none⟩]) ∧
    (s.regs.valid = true → t.regs.valid = false → r.word = 0x50000000) ∧
    (r.word = 0x50000000 → t.regs.valid = false) ∧
    (bits r.word 31 28 = 1 → t.responses = s.responses ++ [⟨okWord, [], none⟩] → t.regs.valid = true)

/-- R92: after the status word come `LEN` bytes for an `ENC` or `DEC` with code 0, the `STATUS` word for an `RDSTAT`, and
nothing in every other case. -/
def Obligations.WhatFollowsTheStatusWord : Prop :=
  (∀ (s t : State) (r : Response), step s = .next t → t.responses = s.responses ++ [r] → r.status ≠ okWord →
    r.dout = [] ∧ r.extra = none) ∧
  (∀ (i : Instr) (s t : State) (r : Response), exec i s = .next t → t.responses = s.responses ++ [r] →
    (∀ (dir : Dir) (n : Nat), i = dir.command n → r.status = okWord → r.dout.length = n ∧ r.extra = none) ∧
    (i = .rdstat → r.status = okWord → r.dout = [] ∧ r.extra = some s.regs.status) ∧
    (¬ (i = .rdstat ∨ ∃ (dir : Dir) (n : Nat), i = dir.command n) → r.dout = [] ∧ r.extra = none))

/-! ## Arithmetic and tables -/

/-- R19: `gmul` is the exclusive or over the bits of `b` of the repeated `xtime`, it is commutative, and its products by 0, 1,
2 and 3 are as said there. -/
def Obligations.GfMultiplication : Prop :=
  (∀ a : Byte, xtime a = if a.getLsbD 7 then (a <<< 1) ^^^ 0x1b else a <<< 1) ∧
  (∀ a b : Byte, gmul a b = ((List.range 8).map fun i => if b.getLsbD i then xtime^[i] a else 0).foldl (· ^^^ ·) 0) ∧
  (∀ a b : Byte, gmul a b = gmul b a) ∧
  (∀ a : Byte, gmul a 1 = a ∧ gmul a 0 = 0 ∧ gmul a 2 = xtime a ∧ gmul a 3 = xtime a ^^^ a) ∧
  gmul 0x57 0x83 = 0xc1 ∧ xtime 0x57 = 0xae ∧ xtime 0xae = 0x47 ∧ xtime 0x80 = 0x1b

/-- R141: every entry of the S-box is the affine image of the multiplicative inverse of its index, the inverse of 0 being 0; it
has no fixed point and no two entries are equal. -/
def Obligations.SboxIsTheAlgebraicOne : Prop :=
  (∀ a b : Byte, (a = 0 ∧ b = 0 ∨ gmul a b = 1) →
    sbox a = b ^^^ b.rotateLeft 1 ^^^ b.rotateLeft 2 ^^^ b.rotateLeft 3 ^^^ b.rotateLeft 4 ^^^ 0x63) ∧
  (∀ a : Byte, a ≠ 0 → ∃ b : Byte, gmul a b = 1) ∧
  (∀ a : Byte, sbox a ≠ a) ∧ (∀ a b : Byte, sbox a = sbox b → a = b) ∧
  sbox 0x00 = 0x63 ∧ sbox 0x53 = 0xed ∧ sbox 0xff = 0x16

/-- R142: the two ROMs are inverse permutations of the bytes. -/
def Obligations.InverseSboxUndoesSbox : Prop :=
  (∀ a : Byte, invSbox (sbox a) = a) ∧ (∀ a : Byte, sbox (invSbox a) = a) ∧ invSbox 0x63 = 0x00 ∧ invSbox 0x00 = 0x52

/-- 41_block_transform.md sections 3 and 4 (R145, R151): on the flat index, `ShiftRows` takes byte `r + 4c` from byte
`r + 4·((c + r) mod 4)`, `InvShiftRows` from `r + 4·((c - r) mod 4)`, and the second undoes the first; and the examples. -/
def Obligations.ShiftRowsOnTheFlatIndex : Prop :=
  (∀ B : Block,
    (∀ r c : Nat, r < 4 → c < 4 → (shiftRows B).byte (r + 4 * c) = B.byte (r + 4 * ((c + r) % 4))) ∧
    (∀ r c : Nat, r < 4 → c < 4 → (invShiftRows B).byte (r + 4 * c) = B.byte (r + 4 * ((c + 4 - r) % 4))) ∧
    invShiftRows (shiftRows B) = B) ∧
  shiftRows (blk128 0x000102030405060708090a0b0c0d0e0f) = blk128 0x00050a0f04090e03080d02070c01060b ∧
  invShiftRows (blk128 0x000102030405060708090a0b0c0d0e0f) = blk128 0x000d0a0704010e0b0805020f0c090603

/-- R153: `InvMixColumns` works on each column, undoes `MixColumns` and is linear over the exclusive or. -/
def Obligations.InvMixColumnsUndoesMixColumns : Prop :=
  (∀ B : Block, invMixColumns B = ⟨invMixColumn B.c0, invMixColumn B.c1, invMixColumn B.c2, invMixColumn B.c3⟩) ∧
  (∀ B : Block, invMixColumns (mixColumns B) = B) ∧
  (∀ A B : Block, invMixColumns (A.xor B) = (invMixColumns A).xor (invMixColumns B))

/-- R17: `be128` is the base-256 number whose most significant digit is byte 0, and `blk128` is its inverse. -/
def Obligations.BlocksAreBigEndianIntegers : Prop :=
  (∀ B : Block, be128 B = ((List.range 16).map fun i => (B.byte i).toNat * 256 ^ (15 - i)).sum) ∧
  (∀ B : Block, be128 B < 2 ^ 128 ∧ blk128 (be128 B) = B) ∧
  (∀ n : Nat, n < 2 ^ 128 → be128 (blk128 n) = n)

/-- R198: `Inc128` adds 1 modulo 2^128; byte-wise, the last byte that is not `ff` grows by one, the bytes after it become
zero, the bytes before it stay, and sixteen `ff` become sixteen zeros. -/
def Obligations.CounterIncrement : Prop :=
  (∀ B : Block, inc128 B = blk128 ((be128 B + 1) % 2 ^ 128)) ∧
  (∀ (B : Block) (k : Nat), k < 16 → B.byte k ≠ 0xff → (∀ j, k < j → j < 16 → B.byte j = 0xff) →
    (inc128 B).byte k = B.byte k + 1 ∧ (∀ j, k < j → j < 16 → (inc128 B).byte j = 0) ∧
    (∀ j, j < k → (inc128 B).byte j = B.byte j)) ∧
  (∀ B : Block, (∀ j, j < 16 → B.byte j = 0xff) → inc128 B = Block.zero) ∧
  inc128 (blk128 0xf0f1f2f3f4f5f6f7f8f9fafbfcfdfeff) = blk128 0xf0f1f2f3f4f5f6f7f8f9fafbfcfdff00 ∧
  inc128 (blk128 0xff) = blk128 0x100 ∧ inc128 (blk128 0xffffffffffffffffffffffffffffffff) = blk128 0

/-! ## Key scheduler -/

/-- R116 and R117: which step makes the word at index `i`, what it is, and that `SubWord` and `RotWord` commute. -/
def Obligations.KeyStepOfEachIndex : Prop :=
  (∀ (k : KeyWords) (i : Nat) (p : Word), k ≠ .k0 → k.words ≤ i →
    (i % k.words = 0 → stepKind i k.words = .full ∧
      stepWord i k.words p = (subWord (rotWord p)).xor (rcon (i / k.words))) ∧
    (i % k.words ≠ 0 → k.words = 8 → i % 8 = 4 →
      stepKind i k.words = .sub ∧ stepWord i k.words p = subWord p) ∧
    (i % k.words ≠ 0 → ¬ (k.words = 8 ∧ i % 8 = 4) →
      stepKind i k.words = .none ∧ stepWord i k.words p = p)) ∧
  (∀ p : Word, subWord (rotWord p) = rotWord (subWord p)) ∧
  stepWord 4 4 ⟨0x09, 0xcf, 0x4f, 0x3c⟩ = ⟨0x8b, 0x84, 0xeb, 0x01⟩

/-- R118: the key words, then the recurrence up to `NW`, then zero words; the first derived word of the all-zero key; and the
worked example. -/
def Obligations.KeyExpansionRecurrence : Prop :=
  (∀ (k : KeyWords) (key : List Byte), k ≠ .k0 → key.length = 4 * k.words →
    (∀ i, i < k.words → (expandKey k key).word i = keyword key i) ∧
    (∀ i, k.words ≤ i → i < k.scheduleWords →
      (expandKey k key).word i =
        ((expandKey k key).word (i - k.words)).xor (stepWord i k.words ((expandKey k key).word (i - 1)))) ∧
    (∀ i, k.scheduleWords ≤ i → i ≤ 59 → (expandKey k key).word i = Word.zero) ∧
    (key = List.replicate (4 * k.words) 0 → (expandKey k key).word k.words = ⟨0x62, 0x63, 0x63, 0x63⟩)) ∧
  (expandKey .k4 (bytesBE 16 exampleKey128)).word 4 = ⟨0xa0, 0xfa, 0xfe, 0x17⟩ ∧
  (expandKey .k4 (bytesBE 16 exampleKey128)).word 5 = ⟨0x88, 0x54, 0x2c, 0xb1⟩ ∧
  (expandKey .k4 (bytesBE 16 exampleKey128)).word 43 = ⟨0xb6, 0x63, 0x0c, 0xa6⟩

/-- R124: round keys 0 and `Nr` are copied, those between go through `InvMixWord`, the words above `NW` are zero; and the worked
example. -/
def Obligations.InverseScheduleWords : Prop :=
  (∀ (k : KeyWords) (ek : Schedule), k ≠ .k0 →
    (∀ i, i ≤ 3 → (invSchedule k ek).word i = ek.word i) ∧
    (∀ i, 4 ≤ i → i ≤ 4 * k.rounds - 1 → (invSchedule k ek).word i = invMixWord (ek.word i)) ∧
    (∀ i, 4 * k.rounds ≤ i → i ≤ 4 * k.rounds + 3 → (invSchedule k ek).word i = ek.word i) ∧
    (∀ i, k.scheduleWords ≤ i → i ≤ 59 → (invSchedule k ek).word i = Word.zero)) ∧
  (let dk := invSchedule .k4 (expandKey .k4 (bytesBE 16 exampleKey128))
   dk.roundKey 0 = blk128 exampleKey128 ∧ dk.roundKey 1 = blk128 0x2b3708a7f262d405bc3ebdbf4b617d62 ∧
   dk.roundKey 10 = blk128 0xd014f9a8c9ee2589e13f0cc8b6630ca6)

/-! ## Block core -/

/-- 41_block_transform.md sections 5 and 6 and 95_test_vectors.md section 4.4: the worked examples of `Forward` and `Inverse` for
the three key lengths (key bytes `00 01 02 ..`, block `00112233445566778899aabbccddeeff`). -/
def Obligations.BlockCoreWorkedExamples : Prop :=
  ∀ k : KeyWords, k ≠ .k0 →
    let ek := expandKey k ((List.range (4 * k.words)).map (BitVec.ofNat 8))
    let P := blk128 0x00112233445566778899aabbccddeeff
    let C := blk128 (match k with
      | .k0 => 0
      | .k4 => 0x69c4e0d86a7b0430d8cdb78070b4c55a
      | .k6 => 0xdda97ca4864cdfe06eaf70a0ec0d7191
      | .k8 => 0x8ea2b7ca516745bfeafc49904b496089)
    forward k.rounds ek P = C ∧ inverse k.rounds (invSchedule k ek) C = P

/-- R165: under one key, `Inverse` undoes `Forward` and `Forward` undoes `Inverse`, on every block, and the direct inverse over
the forward schedule is "an equal alternative". -/
def Obligations.InverseUndoesForward : Prop :=
  ∀ (k : KeyWords) (ek : Schedule) (B : Block),
    inverse k.rounds (invSchedule k ek) (forward k.rounds ek B) = B ∧
    forward k.rounds ek (inverse k.rounds (invSchedule k ek) B) = B ∧
    directInverse k.rounds ek B = inverse k.rounds (invSchedule k ek) B

/-! ## Mode engine -/

/-- R184 and R185: in ECB, `ENC` and `DEC` complete on a whole number of blocks, block `i` of the output is `Forward`,
respectively `Inverse`, of block `i` of the input, and no register changes; and the example of R184. -/
def Obligations.EcbTransformsEachBlock : Prop :=
  (∀ (s : State) (n : Nat), s.regs.valid = true → s.regs.mode = .ecb → s.din.length = 16 * n →
    (∃ out, AnswersOk (.enc (16 * n)) s out s.regs ∧ out.length = 16 * n ∧
      ∀ i, i < n → blockAt out i = s.regs.forward (blockAt s.din i)) ∧
    (∃ out, AnswersOk (.dec (16 * n)) s out s.regs ∧ out.length = 16 * n ∧
      ∀ i, i < n → blockAt out i = s.regs.inverse (blockAt s.din i))) ∧
  FirstBlock .enc .ecb .k4 0x000102030405060708090a0b0c0d0e0f 0
    0x00112233445566778899aabbccddeeff 0x69c4e0d86a7b0430d8cdb78070b4c55a 0 0

/-- R186: CBC encryption on a whole number of blocks: block 0 is chained to `CHAIN`, block `i + 1` to output block `i`, and
`CHAIN` becomes the last output block, or stays where there is none. No other register changes. And the rule's example. -/
def Obligations.CbcEncryptChains : Prop :=
  (∀ (s : State) (n : Nat), s.regs.valid = true → s.regs.mode = .cbc → s.din.length = 16 * n →
    ∃ out, AnswersOk (.enc (16 * n)) s out
        { s.regs with chain := if n = 0 then s.regs.chain else blockAt out (n - 1) } ∧
      out.length = 16 * n ∧
      (0 < n → blockAt out 0 = s.regs.forward ((blockAt s.din 0).xor s.regs.chain)) ∧
      (∀ i, i + 1 < n → blockAt out (i + 1) = s.regs.forward ((blockAt s.din (i + 1)).xor (blockAt out i)))) ∧
  FirstBlock .enc .cbc .k4 exampleKey128 exampleIV
    0x6bc1bee22e409f96e93d7e117393172a 0x7649abac8119b246cee98e9b12e9197d 0x7649abac8119b246cee98e9b12e9197d 0

/-- R187: CBC decryption on a whole number of blocks: block 0 is chained to `CHAIN`, block `i + 1` to INPUT block `i`, and
`CHAIN` becomes the last input block, or stays where there is none. No other register changes. -/
def Obligations.CbcDecryptChains : Prop :=
  ∀ (s : State) (n : Nat), s.regs.valid = true → s.regs.mode = .cbc → s.din.length = 16 * n →
    ∃ out, AnswersOk (.dec (16 * n)) s out
        { s.regs with chain := if n = 0 then s.regs.chain else blockAt s.din (n - 1) } ∧
      out.length = 16 * n ∧
      (0 < n → blockAt out 0 = (s.regs.inverse (blockAt s.din 0)).xor s.regs.chain) ∧
      (∀ i, i + 1 < n → blockAt out (i + 1) = (s.regs.inverse (blockAt s.din (i + 1))).xor (blockAt s.din i))

/-- R190 with R192 and R195: in a stream mode `ENC` and `DEC` complete on a payload of any length, and their output and final
registers come from one pass of the byte loop after the other, from the registers before the command. -/
def Obligations.StreamRunsTheByteLoop : Prop :=
  ∀ (dir : Dir) (s : State), s.regs.valid = true →
    (s.regs.mode = .cfb ∨ s.regs.mode = .ofb ∨ s.regs.mode = .ctr) →
    ∃ (out : List Byte) (R : Nat → Regs), R 0 = s.regs ∧ out.length = s.din.length ∧
      AnswersOk (dir.command s.din.length) s out (R s.din.length) ∧
      ∀ j, j < s.din.length → ByteStep dir (R j) (s.din.getD j 0) (out.getD j 0) (R (j + 1))

/-- R196: CFB on a whole number of blocks from a block boundary: the keystream is `Forward` of the previous CIPHERTEXT block,
which is the output when encrypting and the input when decrypting, and `CHAIN` ends as the last ciphertext block; and the rule's
example. -/
def Obligations.CfbBlockView : Prop :=
  (∀ (s : State) (n : Nat), s.regs.valid = true → s.regs.mode = .cfb → s.regs.pos = 16 → 0 < n →
    s.din.length = 16 * n →
    (∃ out ks, AnswersOk (.enc (16 * n)) s out { s.regs with chain := blockAt out (n - 1), ks := ks } ∧
      out.length = 16 * n ∧
      blockAt out 0 = (blockAt s.din 0).xor (s.regs.forward s.regs.chain) ∧
      (∀ i, i + 1 < n → blockAt out (i + 1) = (blockAt s.din (i + 1)).xor (s.regs.forward (blockAt out i)))) ∧
    (∃ out ks, AnswersOk (.dec (16 * n)) s out { s.regs with chain := blockAt s.din (n - 1), ks := ks } ∧
      out.length = 16 * n ∧
      blockAt out 0 = (blockAt s.din 0).xor (s.regs.forward s.regs.chain) ∧
      (∀ i, i + 1 < n → blockAt out (i + 1) = (blockAt s.din (i + 1)).xor (s.regs.forward (blockAt s.din i))))) ∧
  FirstBlock .enc .cfb .k6 exampleKey192 exampleIV
    0x6bc1bee22e409f96e93d7e117393172a 0xcdc80d6fddf18cab34c25909c99a4174 0xcdc80d6fddf18cab34c25909c99a4174
    0xa609b38df3b1133dddff2718ba09565e

/-- R193: OFB on a whole number of blocks from a block boundary, in either direction: keystream block `i` is `Forward` applied
`i + 1` times to `CHAIN`, and `CHAIN` and `KS` end as the last keystream block; and the rule's example. -/
def Obligations.OfbBlockView : Prop :=
  (∀ (dir : Dir) (s : State) (n : Nat), s.regs.valid = true → s.regs.mode = .ofb → s.regs.pos = 16 → 0 < n →
    s.din.length = 16 * n →
    ∃ out, AnswersOk (dir.command (16 * n)) s out
        { s.regs with chain := s.regs.forward^[n] s.regs.chain, ks := s.regs.forward^[n] s.regs.chain } ∧
      out.length = 16 * n ∧
      ∀ i, i < n → blockAt out i = (blockAt s.din i).xor (s.regs.forward^[i + 1] s.regs.chain)) ∧
  (∀ dir : Dir, FirstBlock dir .ofb .k8 exampleKey256 exampleIV
    0x6bc1bee22e409f96e93d7e117393172a 0xdc7e84bfda79164b7ecd8486985d3860 0xb7bf3a5df43989dd97f0fa97ebce2f4a
    0xb7bf3a5df43989dd97f0fa97ebce2f4a)

/-- R194: CTR on a whole number of blocks from a block boundary, in either direction: keystream block `i` is `Forward` of the
counter plus `i` modulo 2^128, and the counter ends `n` further; and the rule's example. -/
def Obligations.CtrBlockView : Prop :=
  (∀ (dir : Dir) (s : State) (n : Nat), s.regs.valid = true → s.regs.mode = .ctr → s.regs.pos = 16 → 0 < n →
    s.din.length = 16 * n →
    ∃ out ks, AnswersOk (dir.command (16 * n)) s out
        { s.regs with chain := blk128 ((be128 s.regs.chain + n) % 2 ^ 128), ks := ks } ∧
      out.length = 16 * n ∧
      ∀ i, i < n →
        blockAt out i = (blockAt s.din i).xor (s.regs.forward (blk128 ((be128 s.regs.chain + i) % 2 ^ 128)))) ∧
  (∀ dir : Dir, FirstBlock dir .ctr .k6 exampleKey192 0xf0f1f2f3f4f5f6f7f8f9fafbfcfdfeff
    0x6bc1bee22e409f96e93d7e117393172a 0x1abc932417521ca24f2b0459fe7e6e0b 0xf0f1f2f3f4f5f6f7f8f9fafbfcfdff00
    0x717d2dc639128334a6167a488ded7921)

/-- 42_mode_engine.md section 5 (R203, which the spec marks as derived): the counter has advanced once for every 16 bytes begun
since `INIT` or `RESET`, in either direction, and `POS` is the number of bytes into the block. -/
def Obligations.CtrCounterAdvance : Prop :=
  (∀ r : Regs, r.Fresh → r.CtrProgress 0) ∧
  (∀ (dir : Dir) (s : State) (t : Nat), s.regs.valid = true → s.regs.mode = .ctr → s.regs.CtrProgress t →
    ∃ out regs, AnswersOk (dir.command s.din.length) s out regs ∧ regs.mode = .ctr ∧ regs.valid = true ∧
      regs.CtrProgress (t + s.din.length))

/-- 42_mode_engine.md section 3 (R193, R194, R197): in OFB and CTR, `ENC` and `DEC` are the same function of the state and the
data. -/
def Obligations.OfbAndCtrHaveNoDirection : Prop :=
  ∀ (s : State) (n : Nat), (s.regs.mode = .ofb ∨ s.regs.mode = .ctr) → exec (.enc n) s = exec (.dec n) s

/-- 42_mode_engine.md section 3 (R197) and 10_state.md section 7: in the stream modes `ENC` and `DEC` never read `DK`: with any
other content of it, the answer and every other register are the same. -/
def Obligations.StreamModesIgnoreTheInverseSchedule : Prop :=
  ∀ (dir : Dir) (s : State) (n : Nat) (x : Schedule), s.regs.mode.isBlock = false →
    (∀ t : State, exec (dir.command n) s = .next t →
      exec (dir.command n) { s with regs := { s.regs with dk := x } } =
        .next { t with regs := { t.regs with dk := x } })

/-- 42_mode_engine.md section 5 (R206, which the spec marks as derived): `LEN = 0` succeeds in every mode of a valid session,
with no output and no register changed. -/
def Obligations.ZeroLengthChangesNothing : Prop :=
  ∀ (dir : Dir) (s : State), s.regs.valid = true → s.din = [] → AnswersOk (dir.command 0) s [] s.regs

/-- 42_mode_engine.md section 5 (R200, R201, which the spec marks as derived), on the machine: a message sent as any number of
commands gives the same output bytes and the same registers as sent in one, in the stream modes for any split, in the block
modes for splits into multiples of 16 bytes. -/
def Obligations.ChunkingIsInvisible : Prop :=
  ∀ (dir : Dir) (s : State) (pieces : List (List Byte)), s.regs.valid = true → s.din = [] →
    (s.regs.mode.isBlock = true → ∀ p ∈ pieces, p.length % 16 = 0) → pieces.flatten.length < 16777216 →
    ∃ (t u : State) (answers : List Response) (answer : Response),
      Sys2Proof.core.run pieces.length { s with requests := pieces.map (dataRequest dir) } = .next t ∧
      Sys2Proof.core.run 1 { s with requests := [dataRequest dir pieces.flatten] } = .next u ∧
      t.responses = s.responses ++ answers ∧ u.responses = s.responses ++ [answer] ∧
      (∀ a ∈ answers, a.status = okWord) ∧ answer.status = okWord ∧
      answers.flatMap (·.dout) = answer.dout ∧ t.regs = u.regs

/-- 42_mode_engine.md section 5 (R202, which the spec marks as derived): from a session just after `INIT` or `RESET`, `ENC x`,
then `RESET`, then `DEC` of the answer gives `x` back, in every mode and for every key length, and leaves the registers as they
were after the `ENC`. -/
def Obligations.DecryptUndoesEncrypt : Prop :=
  ∀ (s : State) (x : List Byte), s.regs.Inv → s.regs.valid = true → s.regs.Fresh →
    (s.regs.mode.isBlock = true → x.length % 16 = 0) →
    ∃ (t u v : State) (y : List Byte),
      exec (.enc x.length) { s with din := x } = .next t ∧ t.responses = s.responses ++ [⟨okWord, y, none⟩] ∧
      exec .reset t = .next u ∧ y.length = x.length ∧
      exec (.dec y.length) { u with din := y } = .next v ∧ v.responses = u.responses ++ [⟨okWord, x, none⟩] ∧
      v.regs = t.regs

/-- 20_memory.md section 2 (R54): "the engine takes no fewer and no more" bytes than a request declares, so a step leaves nothing on an
empty data-in stream. With it no run meets the stop of log entry 3. -/
def Obligations.StepLeavesNoInputOver : Prop :=
  ∀ s t : State, s.din = [] → step s = .next t → t.din = []
end

