-- ==== Sys2Proof/Laws/Bytes.lean ====
section
/-! SUPPORT. Words and blocks as byte sequences: lengths, indexing, cutting a payload into blocks, and the exclusive or. -/

namespace Sys2Proof

open Machine

/-! ## The exclusive or -/

theorem Word.xor_comm (a b : Word) : a.xor b = b.xor a := by simp [Word.xor, BitVec.xor_comm]
theorem Word.xor_assoc (a b c : Word) : (a.xor b).xor c = a.xor (b.xor c) := by simp [Word.xor, BitVec.xor_assoc]
@[simp] theorem Word.xor_self (a : Word) : a.xor a = Word.zero := by simp [Word.xor, Word.zero]
@[simp] theorem Word.xor_zero (a : Word) : a.xor Word.zero = a := by simp [Word.xor, Word.zero]
@[simp] theorem Word.zero_xor (a : Word) : Word.zero.xor a = a := by simp [Word.xor, Word.zero]

theorem Block.xor_comm (a b : Block) : a.xor b = b.xor a := by simp [Block.xor, Word.xor_comm]
theorem Block.xor_assoc (a b c : Block) : (a.xor b).xor c = a.xor (b.xor c) := by simp [Block.xor, Word.xor_assoc]
@[simp] theorem Block.xor_self (a : Block) : a.xor a = Block.zero := by simp [Block.xor, Block.zero]
@[simp] theorem Block.xor_zero (a : Block) : a.xor Block.zero = a := by simp [Block.xor, Block.zero]

/-- Adding the same block twice changes nothing: `AddRoundKey` is its own inverse (41_block_transform.md R143). -/
@[simp] theorem Block.xor_xor_cancel (a b : Block) : (a.xor b).xor b = a := by simp [Block.xor_assoc]

/-! ## Bytes of a block -/

@[simp] theorem Block.bytes_length (B : Block) : B.bytes.length = 16 := rfl

/-- A block is the block of its own bytes, whatever follows them. -/
@[simp] theorem Block.ofBytes_bytes_append (B : Block) (l : List Byte) : Block.ofBytes (B.bytes ++ l) = B := rfl

@[simp] theorem Block.ofBytes_bytes (B : Block) : Block.ofBytes B.bytes = B := rfl

/-- A sequence of 16 bytes is the bytes of its block. -/
theorem Block.bytes_ofBytes {l : List Byte} (h : l.length = 16) : (Block.ofBytes l).bytes = l := by
  match l, h with
  | [_, _, _, _, _, _, _, _, _, _, _, _, _, _, _, _], _ => rfl

/-- Only the first 16 bytes matter. -/
theorem Block.ofBytes_take (l : List Byte) : Block.ofBytes (l.take 16) = Block.ofBytes l := by
  simp [Block.ofBytes, wordAt]

theorem Block.bytes_ofBytes_take {l : List Byte} (h : 16 ≤ l.length) : (Block.ofBytes l).bytes = l.take 16 := by
  rw [← Block.ofBytes_take, Block.bytes_ofBytes (by simp [h])]

/-- Blocks with the same bytes are equal. -/
theorem Block.ext_byte {A B : Block} (h : ∀ j, j < 16 → A.byte j = B.byte j) : A = B := by
  obtain ⟨⟨_, _, _, _⟩, ⟨_, _, _, _⟩, ⟨_, _, _, _⟩, ⟨_, _, _, _⟩⟩ := A
  obtain ⟨⟨_, _, _, _⟩, ⟨_, _, _, _⟩, ⟨_, _, _, _⟩, ⟨_, _, _, _⟩⟩ := B
  have h0 := h 0 (by omega); have h1 := h 1 (by omega); have h2 := h 2 (by omega); have h3 := h 3 (by omega)
  have h4 := h 4 (by omega); have h5 := h 5 (by omega); have h6 := h 6 (by omega); have h7 := h 7 (by omega)
  have h8 := h 8 (by omega); have h9 := h 9 (by omega); have ha := h 10 (by omega); have hb := h 11 (by omega)
  have hc := h 12 (by omega); have hd := h 13 (by omega); have he := h 14 (by omega); have hf := h 15 (by omega)
  simp [Block.byte, Block.bytes, Word.bytes] at *
  simp [*]

/-- Byte `j` of the block of a sequence is entry `j` of the sequence. -/
theorem Block.byte_ofBytes {l : List Byte} {j : Nat} (h : l.length = 16) : (Block.ofBytes l).byte j = l.getD j 0 := by
  rw [Block.byte, Block.bytes_ofBytes h]

/-- `CHAIN[j] <- v` writes byte `j` and no other (00_scope.md R18). -/
theorem Block.byte_setByte (B : Block) (k j : Nat) (v : Byte) (hk : k < 16) :
    (B.setByte k v).byte j = if j = k then v else B.byte j := by
  rw [Block.setByte, Block.byte_ofBytes (by simp)]
  by_cases h : j = k
  · subst h
    simp [hk]
  · simp [h, Block.byte, Ne.symm h]

/-- The exclusive or works byte by byte. -/
theorem Block.byte_xor (A B : Block) {j : Nat} (h : j < 16) : (A.xor B).byte j = A.byte j ^^^ B.byte j := by
  interval_cases j <;> rfl

/-! ## Payloads as blocks -/

@[simp] theorem blocksOf_length (n : Nat) (bs : List Byte) : (blocksOf n bs).length = n := by
  induction n generalizing bs with
  | zero => rfl
  | succ n ih => simp [blocksOf, ih]

/-- Block `i` of a payload starts at byte `16i` (20_memory.md R58). -/
@[simp] theorem blocksOf_getElem {n : Nat} {bs : List Byte} {i : Nat} (h : i < (blocksOf n bs).length) :
    (blocksOf n bs)[i] = blockAt bs i := by
  induction n generalizing bs i with
  | zero => simp [blocksOf] at h
  | succ n ih =>
    cases i with
    | zero => simp [blocksOf, blockAt]
    | succ i =>
      simp only [blocksOf, List.getElem_cons_succ, ih, blockAt, List.drop_drop]
      congr 2
      omega

@[simp] theorem bytesOf_nil : bytesOf [] = [] := rfl
@[simp] theorem bytesOf_cons (B : Block) (Bs : List Block) : bytesOf (B :: Bs) = B.bytes ++ bytesOf Bs := rfl

@[simp] theorem bytesOf_length (Bs : List Block) : (bytesOf Bs).length = 16 * Bs.length := by
  induction Bs with
  | nil => rfl
  | cons B Bs ih => simp [ih]; omega

/-- Block `i` of the bytes of a sequence of blocks is its entry `i`. -/
theorem blockAt_bytesOf {Bs : List Block} {i : Nat} (h : i < Bs.length) : blockAt (bytesOf Bs) i = Bs[i] := by
  induction Bs generalizing i with
  | nil => simp at h
  | cons B Bs ih =>
    cases i with
    | zero => simp [blockAt]
    | succ i =>
      have hd : (bytesOf (B :: Bs)).drop (16 * (i + 1)) = (bytesOf Bs).drop (16 * i) := by
        rw [bytesOf_cons, Nat.mul_add, Nat.add_comm, List.drop_append]
        simp
      simp only [blockAt, hd, List.getElem_cons_succ]
      exact ih (by simpa using h)

/-- Cutting the bytes of blocks gives the blocks back. -/
@[simp] theorem blocksOf_bytesOf (Bs : List Block) : blocksOf Bs.length (bytesOf Bs) = Bs := by
  apply List.ext_getElem (by simp)
  intro i _ h2
  rw [blocksOf_getElem, blockAt_bytesOf h2]

/-- The bytes of the blocks of an aligned payload are the payload. -/
theorem bytesOf_blocksOf {n : Nat} {bs : List Byte} (h : bs.length = 16 * n) : bytesOf (blocksOf n bs) = bs := by
  induction n generalizing bs with
  | zero => simp_all [blocksOf]
  | succ n ih =>
    rw [blocksOf, bytesOf_cons, ih (by simp [h]; omega), Block.bytes_ofBytes_take (by omega), List.take_append_drop]

end Sys2Proof
end

