-- ==== Sys2Proof/Laws/Galois.lean ====
section
/-! SUPPORT. GF(2^8) multiplication is linear in its first argument; the column mixings and the key RAM accessors. -/

namespace Sys2Proof.Machine

/-- `xtime` as a shift and a conditional reduction (00_scope.md R19). -/
theorem xtime_eq (a : Byte) : xtime a = (a <<< 1) ^^^ (if a.getLsbD 7 then 0x1b else 0) := by
  unfold xtime
  split <;> simp

/-- `xtime` is linear over the exclusive or. -/
theorem xtime_xor (a b : Byte) : xtime (a ^^^ b) = xtime a ^^^ xtime b := by
  have hs : (a ^^^ b) <<< 1 = (a <<< 1) ^^^ (b <<< 1) := BitVec.shiftLeft_xor_distrib a b 1
  simp only [xtime_eq, BitVec.getLsbD_xor, hs]
  cases a.getLsbD 7 <;> cases b.getLsbD 7 <;> simp <;> grind

@[simp] theorem xtime_zero : xtime 0 = 0 := by decide

theorem gmulBits_xor (n : Nat) (a b c : Byte) : gmulBits n (a ^^^ b) c = gmulBits n a c ^^^ gmulBits n b c := by
  induction n generalizing a b c with
  | zero => simp [gmulBits]
  | succ n ih =>
    simp only [gmulBits, xtime_xor, ih]
    split
    · grind
    · simp

/-- `gmul` is linear in its first argument (41_block_transform.md R153 rests on it). -/
theorem gmul_xor (a b c : Byte) : gmul (a ^^^ b) c = gmul a c ^^^ gmul b c := gmulBits_xor 8 a b c

theorem gmulBits_zero (n : Nat) (c : Byte) : gmulBits n 0 c = 0 := by
  induction n generalizing c with
  | zero => rfl
  | succ n ih => rw [gmulBits, xtime_zero, ih]; simp

@[simp] theorem gmul_zero_left (c : Byte) : gmul 0 c = 0 := gmulBits_zero 8 c

/-- The products the column mixings use, by `xtime` alone. -/
theorem gmul_two (a : Byte) : gmul a 2 = xtime a := by simp [gmul, gmulBits]
theorem gmul_three (a : Byte) : gmul a 3 = a ^^^ xtime a := by simp [gmul, gmulBits]
theorem gmul_nine (a : Byte) : gmul a 9 = a ^^^ xtime (xtime (xtime a)) := by simp [gmul, gmulBits]
theorem gmul_eleven (a : Byte) : gmul a 11 = a ^^^ (xtime a ^^^ xtime (xtime (xtime a))) := by simp [gmul, gmulBits]
theorem gmul_thirteen (a : Byte) : gmul a 13 = a ^^^ (xtime (xtime a) ^^^ xtime (xtime (xtime a))) := by
  simp [gmul, gmulBits]
theorem gmul_fourteen (a : Byte) : gmul a 14 = xtime a ^^^ (xtime (xtime a) ^^^ xtime (xtime (xtime a))) := by
  simp [gmul, gmulBits]

/-- `MixColumn` is linear. -/
theorem mixColumn_xor (a b : Word) : mixColumn (a.xor b) = (mixColumn a).xor (mixColumn b) := by
  simp only [mixColumn, Word.xor, gmul_xor, Word.mk.injEq]
  refine ⟨?_, ?_, ?_, ?_⟩ <;> grind

/-- `InvMixColumn` is linear (40_key_schedule.md R123). -/
theorem invMixColumn_xor (a b : Word) : invMixColumn (a.xor b) = (invMixColumn a).xor (invMixColumn b) := by
  simp only [invMixColumn, Word.xor, gmul_xor, Word.mk.injEq]
  refine ⟨?_, ?_, ?_, ?_⟩ <;> grind

/-! ## The key RAM -/

/-- A filled key RAM holds word `i` of the list, and zero words above it. -/
theorem word_ofWords (ws : List Word) {i : Nat} (h : i < 60) : (Schedule.ofWords ws).word i = ws.getD i Word.zero := by
  have hl : i < (Schedule.ofWords ws).toList.length := by simpa using h
  rw [Schedule.word, List.getD_eq_getElem _ _ hl, Vector.getElem_toList]
  simp [Schedule.ofWords]

/-- Two key RAMs with the same 60 words are equal. -/
theorem schedule_ext {x y : Schedule} (h : ∀ i, i < 60 → x.word i = y.word i) : x = y := by
  apply Vector.ext
  intro i hi
  have := h i hi
  simp only [Schedule.word] at this
  rw [List.getD_eq_getElem _ _ (by simpa using hi), List.getD_eq_getElem _ _ (by simpa using hi)] at this
  simpa using this

@[simp] theorem word_zero (i : Nat) : Schedule.zero.word i = Word.zero := by
  simp only [Schedule.word, Schedule.zero, Vector.toList_replicate, List.getD_eq_getElem?_getD, List.getElem?_replicate]
  split <;> rfl

@[simp] theorem expandWords_length (nk : Nat) (key : List Byte) (n : Nat) : (expandWords nk key n).length = nk + n := by
  induction n with
  | zero => simp [expandWords]
  | succ n ih => simp [expandWords, ih]; omega

/-- Later words never change earlier ones (40_key_schedule.md R118). -/
theorem expandWords_prefix (nk : Nat) (key : List Byte) (n d i : Nat) (h : i < nk + n) :
    (expandWords nk key (n + d)).getD i Word.zero = (expandWords nk key n).getD i Word.zero := by
  induction d with
  | zero => rfl
  | succ d ih =>
    rw [← Nat.add_assoc, expandWords, ← ih, List.getD_append _ _ _ _ (by simp; omega)]

end Sys2Proof.Machine
end

