-- ==== Sys2Proof/Laws/State.lean ====
section
/-! SUPPORT. What each named update of the state does to each field, true by definition. -/

namespace Sys2Proof.Machine

section respond
variable (s : State) (regs : Regs) (dout : List Byte) (extra : Option CmdWord)

@[simp] theorem respond_regs : (s.respond regs dout extra).regs = regs := rfl
@[simp] theorem respond_requests : (s.respond regs dout extra).requests = s.requests := rfl
@[simp] theorem respond_din : (s.respond regs dout extra).din = [] := rfl
@[simp] theorem respond_responses :
    (s.respond regs dout extra).responses = s.responses ++ [⟨okWord, dout, extra⟩] := rfl

end respond

section raise
variable (s : State) (e : Err)

@[simp] theorem raise_regs : (s.raise e).regs = s.regs := rfl
@[simp] theorem raise_requests : (s.raise e).requests = s.requests := rfl
@[simp] theorem raise_responses : (s.raise e).responses = s.responses ++ [⟨e.word, [], none⟩] := rfl
@[simp] theorem raise_din_invalidCommand : (s.raise .invalidCommand).din = s.din := rfl
theorem raise_din (h : e ≠ .invalidCommand) : (s.raise e).din = [] := by simp [State.raise, h]

end raise

section rewind
variable (r : Regs)

@[simp] theorem rewind_valid : (rewind r).valid = r.valid := rfl
@[simp] theorem rewind_mode : (rewind r).mode = r.mode := rfl
@[simp] theorem rewind_nk : (rewind r).nk = r.nk := rfl
@[simp] theorem rewind_ek : (rewind r).ek = r.ek := rfl
@[simp] theorem rewind_dk : (rewind r).dk = r.dk := rfl
@[simp] theorem rewind_iv0 : (rewind r).iv0 = r.iv0 := rfl
@[simp] theorem rewind_chain : (rewind r).chain = r.iv0 := rfl
@[simp] theorem rewind_ks : (rewind r).ks = Block.zero := rfl
@[simp] theorem rewind_pos : (rewind r).pos = 16 := rfl

end rewind

section newSession
variable (m : Mode) (k : KeyWords) (key : List Byte) (iv : Block)

@[simp] theorem newSession_valid : (newSession m k key iv).valid = true := rfl
@[simp] theorem newSession_mode : (newSession m k key iv).mode = m := rfl
@[simp] theorem newSession_nk : (newSession m k key iv).nk = k := rfl
@[simp] theorem newSession_ek : (newSession m k key iv).ek = expandKey k key := rfl
@[simp] theorem newSession_dk : (newSession m k key iv).dk = invSchedule k (expandKey k key) := rfl
@[simp] theorem newSession_iv0 : (newSession m k key iv).iv0 = if m = .ecb then Block.zero else iv := rfl
@[simp] theorem newSession_chain : (newSession m k key iv).chain = if m = .ecb then Block.zero else iv := rfl
@[simp] theorem newSession_ks : (newSession m k key iv).ks = Block.zero := rfl
@[simp] theorem newSession_pos : (newSession m k key iv).pos = 16 := rfl

end newSession

/-- `ZEROIZE` leaves the registers of the power-on reset. -/
theorem cleared_eq_powerOn : cleared = Regs.powerOn := by
  have h : Schedule.ofWords [] = Schedule.zero := by
    ext i hi : 1
    simp [Schedule.ofWords, Schedule.zero]
  simp [cleared, Regs.powerOn, h]

/-- No error has the status word of success (30_encoding.md R91). -/
@[simp] theorem word_ne_ok (e : Err) : e.word ≠ okWord := by cases e <;> decide

/-- Different errors have different status words (30_encoding.md R91). -/
theorem word_injective {e e' : Err} (h : e.word = e'.word) : e = e' := by
  cases e <;> cases e' <;> first | rfl | (exact absurd h (by decide))

end Sys2Proof.Machine
end

