-- ==== Sys2Proof/Laws/Ports.lean ====
section
/-! SUPPORT. What the shared operations at the ports, the meanings and the step can answer, said once. -/

namespace Sys2Proof.Machine

/-- A command answers next exactly with its declared payload. -/
theorem withPayload_next {n : Nat} {s t : State} {k : List Byte → State} :
    withPayload n s k = .next t ↔ s.din.length = n ∧ k s.din = t := by
  unfold withPayload
  split <;> simp_all

/-- With its declared payload a command answers next. -/
theorem withPayload_of_length {n : Nat} {s : State} {k : List Byte → State} (h : s.din.length = n) :
    withPayload n s k = .next (k s.din) := withPayload_next.mpr ⟨h, rfl⟩

/-- Without it there is no move. -/
theorem withPayload_of_length_ne {n : Nat} {s : State} {k : List Byte → State} (h : s.din.length ≠ n) :
    withPayload n s k = .fault .payloadLength := by
  simp [withPayload, h]

/-- What every command does to the state when it completes: rejected with one of the errors of its own, or answered OK. -/
inductive Completes (s : State) : State → Prop where
  | rejected (e : Err) (h : e ≠ .invalidCommand) : Completes s (s.raise e)
  | ok (regs : Regs) (dout : List Byte) (extra : Option CmdWord) : Completes s (s.respond regs dout extra)

/-- No check of `INIT` reports `InvalidCommand`. -/
theorem checkInit_ne_invalidCommand {mode klen ivlen : Nat} {e : Err} (h : checkInit mode klen ivlen = .error e) :
    e ≠ .invalidCommand := by
  unfold checkInit at h
  rintro rfl
  repeat' (split at h)
  all_goals simp_all

/-- No check of `ENC` or `DEC` reports `InvalidCommand`. -/
theorem dataError_ne_invalidCommand {r : Regs} {len : Nat} {e : Err} (h : dataError r len = some e) :
    e ≠ .invalidCommand := by
  unfold dataError at h
  rintro rfl
  repeat' (split at h)
  all_goals simp_all

/-- Every command that completes does one of the two things of `Completes`, on exactly its declared payload. -/
theorem exec_completes {i : Instr} {s t : State} (h : exec i s = .next t) :
    s.din.length = i.paylen ∧ Completes s t := by
  cases i with
  | init m k v =>
    simp only [exec, execInit] at h
    obtain ⟨hl, rfl⟩ := withPayload_next.mp h
    refine ⟨hl, ?_⟩
    split
    · next e he => exact .rejected e (checkInit_ne_invalidCommand he)
    · exact .ok _ _ _
  | enc n =>
    simp only [exec, execEnc] at h
    obtain ⟨hl, rfl⟩ := withPayload_next.mp h
    refine ⟨hl, ?_⟩
    split
    · next e he => exact .rejected e (dataError_ne_invalidCommand he)
    · exact .ok _ _ _
  | dec n =>
    simp only [exec, execDec] at h
    obtain ⟨hl, rfl⟩ := withPayload_next.mp h
    refine ⟨hl, ?_⟩
    split
    · next e he => exact .rejected e (dataError_ne_invalidCommand he)
    · exact .ok _ _ _
  | reset =>
    simp only [exec, execReset] at h
    obtain ⟨hl, rfl⟩ := withPayload_next.mp h
    refine ⟨hl, ?_⟩
    split
    · exact .rejected _ (by decide)
    · exact .ok _ _ _
  | zeroize =>
    simp only [exec, execZeroize] at h
    obtain ⟨hl, rfl⟩ := withPayload_next.mp h
    exact ⟨hl, .ok _ _ _⟩
  | rdstat =>
    simp only [exec, execRdstat] at h
    obtain ⟨hl, rfl⟩ := withPayload_next.mp h
    exact ⟨hl, .ok _ _ _⟩

/-- A completed command leaves the requests alone and the data-in stream empty. -/
theorem Completes.ports {s t : State} (h : Completes s t) : t.requests = s.requests ∧ t.din = [] := by
  cases h with
  | rejected e he => exact ⟨rfl, raise_din s e he⟩
  | ok => exact ⟨rfl, rfl⟩

section spec
variable {s : State}

/-- `INIT` on its declared payload, all checks passed (43_session_commands.md R221). -/
theorem execInit_ok {mode klen ivlen : Nat} {m : Mode} {k : KeyWords} (h : s.din.length = klen + ivlen)
    (hc : checkInit mode klen ivlen = .ok (m, k)) :
    execInit mode klen ivlen s = .next (s.respond (newSession m k (keyOperand klen s.din) (ivOperand klen s.din)) [] none) := by
  simp [execInit, withPayload_of_length h, hc]

/-- `INIT` on its declared payload, a check failed. -/
theorem execInit_error {mode klen ivlen : Nat} {e : Err} (h : s.din.length = klen + ivlen)
    (hc : checkInit mode klen ivlen = .error e) : execInit mode klen ivlen s = .next (s.raise e) := by
  simp [execInit, withPayload_of_length h, hc]

/-- `ENC` on its declared payload, all checks passed (42_mode_engine.md R181). -/
theorem execEnc_ok {n : Nat} (h : s.din.length = n) (hc : dataError s.regs n = none) :
    execEnc n s = .next (s.respond (encrypt s.regs s.din).2 (encrypt s.regs s.din).1 none) := by
  simp [execEnc, withPayload_of_length h, hc]

/-- `ENC` on its declared payload, a check failed. -/
theorem execEnc_error {n : Nat} {e : Err} (h : s.din.length = n) (hc : dataError s.regs n = some e) :
    execEnc n s = .next (s.raise e) := by
  simp [execEnc, withPayload_of_length h, hc]

/-- `DEC` on its declared payload, all checks passed (42_mode_engine.md R182). -/
theorem execDec_ok {n : Nat} (h : s.din.length = n) (hc : dataError s.regs n = none) :
    execDec n s = .next (s.respond (decrypt s.regs s.din).2 (decrypt s.regs s.din).1 none) := by
  simp [execDec, withPayload_of_length h, hc]

/-- `DEC` on its declared payload, a check failed. -/
theorem execDec_error {n : Nat} {e : Err} (h : s.din.length = n) (hc : dataError s.regs n = some e) :
    execDec n s = .next (s.raise e) := by
  simp [execDec, withPayload_of_length h, hc]

/-- `ENC` and `DEC` pass their checks on a valid session, aligned in a block mode. -/
theorem dataError_none {r : Regs} {n : Nat} (hv : r.valid = true) (ha : r.mode.isBlock = true → n % 16 = 0) :
    dataError r n = none := by
  unfold dataError
  simp only [hv, Bool.true_eq_false, if_false]
  split
  · next h => exact absurd (ha h.1) h.2
  · rfl

end spec

/-- What an illegal word does: with no payload it is answered, code 6, and nothing else. -/
theorem answerIllegal_next {s t : State} : answerIllegal s = .next t ↔ s.din = [] ∧ s.raise .invalidCommand = t := by
  rw [answerIllegal, withPayload_next, List.length_eq_zero_iff]

/-- What a step can do: wait, answer an illegal word, or run the command at the head of the port (20_memory.md R63). -/
theorem step_cases {s t : State} (h : step s = .next t) :
    (s.requests = [] ∧ t = s) ∨
    (∃ r rest e, s.requests = r :: rest ∧ decode r.word = .error e ∧ s.din = [] ∧ r.payload = [] ∧
      t = State.raise { s with requests := rest } .invalidCommand) ∨
    (∃ r rest i, s.requests = r :: rest ∧ decode r.word = .ok i ∧ s.din = [] ∧
      exec i { s with requests := rest, din := r.payload } = .next t) := by
  unfold step fetch at h
  cases hr : s.requests with
  | nil => simp_all
  | cons r rest =>
    cases hdin : s.din with
    | cons b bs => simp_all
    | nil =>
      cases hd : decode r.word with
      | error e =>
        simp only [hr, hdin, hd, List.isEmpty_nil, if_true, answerIllegal_next] at h
        refine .inr (.inl ⟨r, rest, e, rfl, hd, rfl, h.1, ?_⟩)
        rw [← h.2, h.1, ← hdin]
      | ok i =>
        simp only [hr, hdin, hd, List.isEmpty_nil, if_true] at h
        exact .inr (.inr ⟨r, rest, i, rfl, hd, rfl, h⟩)

end Sys2Proof.Machine
end

