-- ==== Sys2Proof/Laws/Mode.lean ====
section
/-! SUPPORT. What the mode engine leaves alone, how long its output is, and that the byte loop and the CBC chains do not see
where one piece of the input ends and the next begins. -/

namespace Sys2Proof.Machine

/-- The registers that belong to the session: all but `CHAIN`, `KS` and `POS` agree (10_state.md R35). -/
def SameSession (r r' : Regs) : Prop := r' = { r with chain := r'.chain, ks := r'.ks, pos := r'.pos }

theorem SameSession.refl (r : Regs) : SameSession r r := rfl

theorem SameSession.trans {a b c : Regs} (h : SameSession a b) (h' : SameSession b c) : SameSession a c := by
  unfold SameSession at *
  rw [h', h]

theorem SameSession.mode {r r' : Regs} (h : SameSession r r') : r'.mode = r.mode := by rw [h]
theorem SameSession.valid {r r' : Regs} (h : SameSession r r') : r'.valid = r.valid := by rw [h]
theorem SameSession.nk {r r' : Regs} (h : SameSession r r') : r'.nk = r.nk := by rw [h]
theorem SameSession.ek {r r' : Regs} (h : SameSession r r') : r'.ek = r.ek := by rw [h]
theorem SameSession.dk {r r' : Regs} (h : SameSession r r') : r'.dk = r.dk := by rw [h]
theorem SameSession.iv0 {r r' : Regs} (h : SameSession r r') : r'.iv0 = r.iv0 := by rw [h]

/-- `Forward` and `Inverse` see only the session's registers. -/
theorem SameSession.forward {r r' : Regs} (h : SameSession r r') : r'.forward = r.forward := by rw [h]; rfl
theorem SameSession.inverse {r r' : Regs} (h : SameSession r r') : r'.inverse = r.inverse := by rw [h]; rfl

theorem nextKeystream_same (r : Regs) : SameSession r (nextKeystream r) := by
  unfold nextKeystream SameSession
  cases h : r.mode <;> simp

@[simp] theorem nextKeystream_ks (r : Regs) : (nextKeystream r).ks = r.forward r.chain := by
  unfold nextKeystream
  cases r.mode <;> rfl

@[simp] theorem nextKeystream_pos (r : Regs) : (nextKeystream r).pos = 0 := by
  unfold nextKeystream
  cases r.mode <;> rfl

theorem streamByte_same (dir : Dir) (r : Regs) (b : Byte) : SameSession r (streamByte dir r b).2 := by
  unfold streamByte
  split
  · exact (nextKeystream_same r).trans rfl
  · exact rfl

theorem stream_same (dir : Dir) (r : Regs) (bs : List Byte) : SameSession r (stream dir r bs).2 := by
  induction bs generalizing r with
  | nil => exact .refl r
  | cons b bs ih => exact (streamByte_same dir r b).trans (ih _)

/-- After a byte, `POS` is never 0 and never above 16 (42_mode_engine.md R190). -/
theorem streamByte_pos (dir : Dir) (r : Regs) (b : Byte) :
    (streamByte dir r b).2.pos.val = if r.pos.val = 16 then 1 else r.pos.val + 1 := by
  have hp := r.pos.isLt
  by_cases h : r.pos = 16
  · have : r.pos.val = 16 := by rw [h]; rfl
    simp [streamByte, h, nextPos]
  · have : r.pos.val ≠ 16 := fun hv => h (Fin.ext hv)
    simp [streamByte, h, nextPos, this]
    omega

@[simp] theorem stream_nil (dir : Dir) (r : Regs) : stream dir r [] = ([], r) := rfl

@[simp] theorem stream_length (dir : Dir) (r : Regs) (bs : List Byte) : (stream dir r bs).1.length = bs.length := by
  induction bs generalizing r with
  | nil => rfl
  | cons b bs ih => simp [stream, ih]

/-- The byte loop does not see where a piece ends (42_mode_engine.md R190). -/
theorem stream_append (dir : Dir) (r : Regs) (as bs : List Byte) :
    stream dir r (as ++ bs) =
      ((stream dir r as).1 ++ (stream dir (stream dir r as).2 bs).1, (stream dir (stream dir r as).2 bs).2) := by
  induction as generalizing r with
  | nil => simp
  | cons a as ih => simp [stream, ih]

@[simp] theorem cbcEncBlocks_length (r : Regs) (c : Block) (Bs : List Block) :
    (cbcEncBlocks r c Bs).1.length = Bs.length := by
  induction Bs generalizing c with
  | nil => rfl
  | cons B Bs ih => simp [cbcEncBlocks, ih]

@[simp] theorem cbcDecBlocks_length (r : Regs) (c : Block) (Bs : List Block) :
    (cbcDecBlocks r c Bs).1.length = Bs.length := by
  induction Bs generalizing c with
  | nil => rfl
  | cons B Bs ih => simp [cbcDecBlocks, ih]

theorem cbcEncBlocks_append (r : Regs) (c : Block) (As Bs : List Block) :
    cbcEncBlocks r c (As ++ Bs) =
      ((cbcEncBlocks r c As).1 ++ (cbcEncBlocks r (cbcEncBlocks r c As).2 Bs).1,
        (cbcEncBlocks r (cbcEncBlocks r c As).2 Bs).2) := by
  induction As generalizing c with
  | nil => simp [cbcEncBlocks]
  | cons A As ih => simp [cbcEncBlocks, ih]

theorem cbcDecBlocks_append (r : Regs) (c : Block) (As Bs : List Block) :
    cbcDecBlocks r c (As ++ Bs) =
      ((cbcDecBlocks r c As).1 ++ (cbcDecBlocks r (cbcDecBlocks r c As).2 Bs).1,
        (cbcDecBlocks r (cbcDecBlocks r c As).2 Bs).2) := by
  induction As generalizing c with
  | nil => simp [cbcDecBlocks]
  | cons A As ih => simp [cbcDecBlocks, ih]

@[simp] theorem payloadBlocks_length (din : List Byte) : (payloadBlocks din).length = din.length / 16 := by
  simp [payloadBlocks]

/-- What either direction of the mode engine does, by mode (42_mode_engine.md R181, R182). -/
def crypt : Dir → Regs → List Byte → List Byte × Regs
  | .enc => encrypt
  | .dec => decrypt

theorem crypt_same (dir : Dir) (r : Regs) (din : List Byte) : SameSession r (crypt dir r din).2 := by
  cases dir <;> cases h : r.mode <;> simp only [crypt, encrypt, decrypt, h, cbcEnc, cbcDec] <;>
    first | exact stream_same _ _ _ | exact SameSession.refl r | simp [SameSession, h]

/-- The stream modes are the byte loop in either direction. -/
theorem crypt_stream {dir : Dir} {r : Regs} (din : List Byte) (h : r.mode.isBlock = false) :
    crypt dir r din = stream dir r din := by
  cases dir <;> cases hm : r.mode <;> simp_all [crypt, encrypt, decrypt, Mode.isBlock]

/-- The output is as long as the input whenever the command passes its checks (20_memory.md R55). -/
theorem crypt_length (dir : Dir) (r : Regs) (din : List Byte) (ha : r.mode.isBlock = true → din.length % 16 = 0) :
    (crypt dir r din).1.length = din.length := by
  have hdiv : r.mode.isBlock = true → 16 * (din.length / 16) = din.length := fun h => by have := ha h; omega
  cases dir <;> cases hm : r.mode <;>
    simp_all [crypt, encrypt, decrypt, Mode.isBlock, ecbEnc, ecbDec, cbcEnc, cbcDec]

end Sys2Proof.Machine
end

