-- ==== Sys2Proof/Laws/PerInstr.lean ====
section
/-! SUPPORT. Statements about every command, one lemma per constructor. -/

namespace Sys2Proof.Laws

/-- The mask of a command's row of the opcode table (30_encoding.md R90). -/
def tableMask : Instr → CmdWord
  | .init _ _ _ => 0xF00000FF
  | .enc _ => 0xFF000000
  | .dec _ => 0xFF000000
  | .reset => 0xFFFFFFFF
  | .zeroize => 0xFFFFFFFF
  | .rdstat => 0xFFFFFFFF

/-- The match value of a command's row of the opcode table (30_encoding.md R90). -/
def tableMatch : Instr → CmdWord
  | .init _ _ _ => 0x10000000
  | .enc _ => 0x20000000
  | .dec _ => 0x30000000
  | .reset => 0x40000000
  | .zeroize => 0x50000000
  | .rdstat => 0x60000000

/-- A bit of a word is a digit of its number. -/
theorem getLsbD_eq_digit (w : CmdWord) (i : Nat) : w.getLsbD i = decide (w.toNat / 2 ^ i % 2 = 1) := by
  rw [BitVec.getLsbD, Nat.testBit_eq_decide_div_mod_eq]

end Sys2Proof.Laws

namespace Sys2Proof.Laws.TableMatch

/-- The word of a command whose fields fit their bits agrees with its row of the opcode table. -/
def Statement (i : Instr) : Prop := i.wf = true → encode i &&& tableMask i = tableMatch i

theorem init (mode klen ivlen : Nat) : Statement (.init mode klen ivlen) := by
  intro h
  simp [Instr.wf] at h
  apply BitVec.eq_of_getLsbD_eq
  intro i hi
  rw [BitVec.getLsbD_and]
  simp only [getLsbD_eq_digit, encode, tableMask, tableMatch, BitVec.toNat_ofNat]
  interval_cases i <;> simp <;> omega

theorem enc (len : Nat) : Statement (.enc len) := by
  intro h
  simp [Instr.wf] at h
  apply BitVec.eq_of_getLsbD_eq
  intro i hi
  rw [BitVec.getLsbD_and]
  simp only [getLsbD_eq_digit, encode, tableMask, tableMatch, BitVec.toNat_ofNat]
  interval_cases i <;> simp <;> omega

theorem dec (len : Nat) : Statement (.dec len) := by
  intro h
  simp [Instr.wf] at h
  apply BitVec.eq_of_getLsbD_eq
  intro i hi
  rw [BitVec.getLsbD_and]
  simp only [getLsbD_eq_digit, encode, tableMask, tableMatch, BitVec.toNat_ofNat]
  interval_cases i <;> simp <;> omega

theorem reset : Statement .reset := fun _ => by decide
theorem zeroize : Statement .zeroize := fun _ => by decide
theorem rdstat : Statement .rdstat := fun _ => by decide

end Sys2Proof.Laws.TableMatch
end

