-- ==== Sys2Proof/Tests/Slice0.lean ====
section
/-! SUPPORT. Tests. Every expected value is the spec's own (95_test_vectors.md, or the section named), none is this model's.
Then one witness for every statement that has hypotheses: a concrete state and operands that meet them together. -/

open Sys2Proof Sys2Proof.Machine

namespace Sys2Proof.Tests

/-! ## WellFormed: a field that does not fit its bits is refused -/

theorem test_wf_accepts : (Instr.init 15 255 255).wf = true ∧ (Instr.enc 16777215).wf = true ∧ Instr.rdstat.wf = true := by
  decide
theorem test_wf_init_mode : (Instr.init 16 16 0).wf = false := by decide
theorem test_wf_init_klen : (Instr.init 0 256 0).wf = false := by decide
theorem test_wf_init_ivlen : (Instr.init 0 16 256).wf = false := by decide
theorem test_wf_enc_len : (Instr.enc 16777216).wf = false := by decide
theorem test_wf_dec_len : (Instr.dec 16777216).wf = false := by decide

/-! ## Decode: words written out bit by bit from 30_encoding.md R82 to R84, and from 95_test_vectors.md section 6 -/

theorem test_decode_init : decode 0b0001_0100_00011000_00010000_00000000 = .ok (.init 4 24 16) := by decide
theorem test_decode_init_every_field : decode 0b0001_1111_10101010_01010101_00000000 = .ok (.init 15 170 85) := by decide
theorem test_decode_enc : decode 0b0010_0000_000000010000001000000011 = .ok (.enc 0x010203) := by decide
theorem test_decode_dec : decode 0b0011_0000_111111111111111111111111 = .ok (.dec 0xFFFFFF) := by decide
theorem test_decode_reset : decode 0b0100_0000000000000000000000000000 = .ok .reset := by decide
theorem test_decode_zeroize : decode 0b0101_0000000000000000000000000000 = .ok .zeroize := by decide
theorem test_decode_rdstat : decode 0b0110_0000000000000000000000000000 = .ok .rdstat := by decide
theorem test_decode_reserved_opcodes :
    decode 0x00000000 = .error .reservedOpcode ∧ decode 0x70000000 = .error .reservedOpcode ∧
    decode 0x80000000 = .error .reservedOpcode ∧ decode 0xFFFFFFFF = .error .reservedOpcode := by decide
theorem test_decode_reserved_bits :
    decode 0x11101001 = .error .reservedBits ∧ decode 0x21000010 = .error .reservedBits ∧
    decode 0x2FFFFFFF = .error .reservedBits ∧ decode 0x40000001 = .error .reservedBits ∧
    decode 0x50000100 = .error .reservedBits ∧ decode 0x68000000 = .error .reservedBits := by decide
theorem test_encode : encode (.init 2 24 16) = 0x12181000 ∧ encode (.dec 64) = 0x30000040 := by decide
theorem test_decodeTableWord :
    decodeTableWord 32 0x6000_0000 = some .rdstat ∧ decodeTableWord 32 0x6000_0001 = none := by decide

/-! ## Arithmetic and tables (95_test_vectors.md section 2) -/

theorem test_gmul : gmul 0x57 0x13 = 0xfe ∧ gmul 0x53 0xca = 0x01 ∧ gmul 0xff 0xff = 0x13 ∧ xtime 0xff = 0xe5 := by decide
theorem test_sbox : sbox 0xca = 0x74 ∧ sbox 0x10 = 0xca ∧ sbox 0xff = 0x16 ∧ invSbox 0xed = 0x53 ∧ invSbox 0xff = 0x7d := by
  decide
theorem test_mixColumn : mixColumn ⟨0xdb, 0x13, 0x53, 0x45⟩ = ⟨0x8e, 0x4d, 0xa1, 0xbc⟩ := by decide +kernel
theorem test_invMixColumn : invMixColumn ⟨0x8e, 0x4d, 0xa1, 0xbc⟩ = ⟨0xdb, 0x13, 0x53, 0x45⟩ := by decide +kernel
theorem test_mixColumns :
    mixColumns (blk128 0x6353e08c0960e104cd70b751bacad0e7) = blk128 0x5f72641557f5bc92f7be3b291db9f91a := by decide +kernel

/-! ## Key scheduler (95_test_vectors.md sections 3.2, 3.3) -/

theorem test_expandKey_192 :
    (expandKey .k6 (bytesBE 24 exampleKey192)).roundKey 12 = blk128 0xe98ba06f448c773c8ecc720401002202 := by decide +kernel
theorem test_expandKey_256_sub_step :
    (expandKey .k8 (bytesBE 32 exampleKey256)).word 12 = ⟨0xa8, 0xb0, 0x9c, 0x1a⟩ := by decide +kernel

/-! ## One step of each command, on small states -/

/-- A session of each mode, with a 16-byte zero key and a zero IV. -/
def session (m : Mode) : Regs := newSession m .k4 (List.replicate 16 0) Block.zero

/-- An engine with such a session and a payload offered. -/
def active (m : Mode) (payload : List Byte) : State := { State.offered payload with regs := session m }

/-- The engine after power-on reset, with one request of a word and `n` zero bytes. -/
def offers (w : CmdWord) (n : Nat) : State := { State.reset with requests := [⟨w, List.replicate n 0⟩] }

/-- The last response of an outcome. -/
def lastAnswer : Host.Outcome State Fault Refusal → Option Response
  | .next t => t.responses.getLast?
  | .fault _ => none
  | .refused _ => none

/-- The registers after an outcome. -/
def regsAfter : Host.Outcome State Fault Refusal → Option Regs
  | .next t => some t.regs
  | .fault _ => none
  | .refused _ => none

/-- Program 4, step 13: ECB with a 7-byte IV, which is ignored. -/
theorem test_init : (regsAfter (step (offers 0x10100700 23))).map
      (fun r => (r.status, r.ek.word 4, r.ek.roundKey 10, r.ek.word 44)) =
    some (0x00001041, ⟨0x62, 0x63, 0x63, 0x63⟩, blk128 0xb4ef5bcb3e92e21123e951cf6f8f188e, Word.zero) := by decide +kernel

/-- Section 6: the bad key length outranks the bad mode; a bad mode outranks a missing IV; a 15-byte IV; each leaves the
registers. -/
theorem test_init_errors :
    lastAnswer (step (offers 0x190F0000 15)) = some ⟨1, [], none⟩ ∧
    lastAnswer (step (offers 0x1F200000 32)) = some ⟨2, [], none⟩ ∧
    lastAnswer (step (offers 0x11100F00 31)) = some ⟨3, [], none⟩ ∧
    regsAfter (step (offers 0x11100F00 31)) = some Regs.powerOn := by decide +kernel

/-- Program 4, step 15: ECB of a zero block under a zero key. Section 6: no session outranks misalignment; 17 bytes in CBC. -/
theorem test_enc :
    lastAnswer (exec (.enc 16) (active .ecb (List.replicate 16 0))) =
      some ⟨0, bytesBE 16 0x66e94bd4ef8a2c3b884cfa59ca342b2e, none⟩ ∧
    lastAnswer (exec (.enc 17) (State.offered (List.replicate 17 0))) = some ⟨5, [], none⟩ ∧
    lastAnswer (exec (.enc 17) (active .cbc (List.replicate 17 0))) = some ⟨4, [], none⟩ := by decide +kernel

/-- Section 5.3, CBC direction switch: `DEC C1` right after `ENC P1` gives `P1 xor IV xor C1`, and `CHAIN` stays `C1`. -/
theorem test_dec : (fun o => (lastAnswer o, (regsAfter o).map (·.chain)))
      (exec (.dec 16)
        { State.offered (bytesBE 16 0x7649abac8119b246cee98e9b12e9197d) with
          regs := { newSession .cbc .k4 (bytesBE 16 exampleKey128) (blk128 exampleIV) with
            chain := blk128 0x7649abac8119b246cee98e9b12e9197d } }) =
    (some ⟨0, bytesBE 16 0x1d89174dab5c2bd72fddfa816d770058, none⟩, some (blk128 0x7649abac8119b246cee98e9b12e9197d)) := by
  decide +kernel

/-- Section 5.2, CFB decryption from inside a block: three ciphertext bytes are used, `CHAIN` collects the fourth INPUT byte
(keystream of section 1.3). -/
theorem test_dec_cfb_feedback : (fun o => ((lastAnswer o).map (·.dout), (regsAfter o).map fun r => (r.chain, r.pos.val)))
      (exec (.dec 1)
        { State.offered [0x6f] with
          regs := { session .cfb with
            chain := blk128 0xcdc80d030405060708090a0b0c0d0e0f
            ks := blk128 0xa609b38df3b1133dddff2718ba09565e
            pos := 3 } }) =
    (some [0xe2], some (blk128 0xcdc80d6f0405060708090a0b0c0d0e0f, 4)) := by decide +kernel

/-- Section 5.4: the counter wraps, from a block boundary, and only the bytes used are counted. -/
theorem test_enc_ctr_wraps : (regsAfter (exec (.enc 2) { active .ctr [0, 0] with
      regs := { session .ctr with chain := blk128 0xffffffffffffffffffffffffffffffff } })).map
      (fun r => (r.chain, r.ks, r.pos.val)) =
    some (Block.zero, blk128 0x3f5b8cc9ea855a0afa7347d23e8d664e, 2) := by decide +kernel

/-- R230's example: after 5 bytes of CTR, `RESET` gives the first counter back. -/
theorem test_reset : (regsAfter (exec .reset { active .ctr [] with
      regs := { session .ctr with
        iv0 := blk128 0xf0f1f2f3f4f5f6f7f8f9fafbfcfdfeff
        chain := blk128 0xf0f1f2f3f4f5f6f7f8f9fafbfcfdff00
        ks := blk128 0x717d2dc639128334a6167a488ded7921
        pos := 5 } })).map (fun r => (r.chain, r.ks, r.pos.val)) =
    some (blk128 0xf0f1f2f3f4f5f6f7f8f9fafbfcfdfeff, Block.zero, 16) := by decide +kernel

/-- Section 6: `RESET` without a session. -/
theorem test_reset_empty : lastAnswer (step (offers 0x40000000 0)) = some ⟨5, [], none⟩ := by decide +kernel

/-- Program 4, step 18: the power-on registers after `ZEROIZE`. -/
theorem test_zeroize : regsAfter (exec .zeroize (active .cfb [])) = some Regs.powerOn := by decide +kernel

/-- Section 6: `RDSTAT` after power-on, and on a cbc-128 session. -/
theorem test_rdstat :
    lastAnswer (step (offers 0x60000000 0)) = some ⟨0, [], some 0x00001000⟩ ∧
    lastAnswer (exec .rdstat (active .cbc [])) = some ⟨0, [], some 0x00001043⟩ := by decide +kernel

/-- Section 6: an illegal word is answered 6, whatever its fields say. 20_memory.md R54: with a payload byte, or behind a byte
left over, it has no move. -/
theorem test_illegal_word : lastAnswer (step (offers 0x2FFFFFFF 0)) = some ⟨6, [], none⟩ ∧
    step (offers 0x70000000 1) = .fault .payloadLength ∧
    step { offers 0x70000000 0 with din := [1] } = .fault .surplusInput := ⟨rfl, rfl, rfl⟩

/-- `withFetchWord` makes the next step run the word's command. -/
theorem test_withFetchWord :
    step (State.reset.withFetchWord 32 0x60000000) = exec .rdstat State.reset ∧
    step (State.reset.withFetchWord 32 0x30000002) = exec (.dec 2) (State.offered [0, 0]) := ⟨rfl, rfl⟩

/-! ## Witnesses: the hypotheses of each statement can be met -/

/-- A step on one request runs its command. -/
theorem step_runs (s : State) (w : CmdWord) (payload : List Byte) (i : Instr) (hd : s.din = []) (h : decode w = .ok i) :
    step { s with requests := [⟨w, payload⟩] } = exec i { s with requests := [], din := payload } := by
  simp [step, fetch, h, hd]

/-- A CBC session from 32 zero bytes completes in any state. -/
theorem init_runs (s : State) (h : s.din = List.replicate 32 0) : ∃ regs : Regs, regs.valid = true ∧
    exec (.init 1 16 16) s = .next (s.respond regs [] none) := by
  have hl : s.din.length = 16 + 16 := by rw [h]; rfl
  have hc : checkInit 1 16 16 = .ok (.cbc, .k4) := by decide
  exact ⟨_, newSession_valid .cbc .k4 _ _, by rw [exec, execInit_ok hl hc]⟩

/-- The data commands complete on a session, aligned in a block mode. -/
theorem data_runs (dir : Dir) (s : State) (n : Nat) (hl : s.din.length = n) (hv : s.regs.valid = true)
    (ha : s.regs.mode.isBlock = true → n % 16 = 0) :
    ∃ (regs : Regs) (out : List Byte), exec (dir.command n) s = .next (s.respond regs out none) := by
  cases dir
  · exact ⟨_, _, execEnc_ok hl (dataError_none hv ha)⟩
  · exact ⟨_, _, execDec_ok hl (dataError_none hv ha)⟩

theorem witness_DecodeOfEncode : (Instr.init 15 255 255).wf = true ∧ (Instr.enc 16777215).wf = true ∧
    (Instr.dec 0).wf = true ∧ Instr.reset.wf = true ∧ Instr.zeroize.wf = true ∧ Instr.rdstat.wf = true := by decide

theorem witness_EncodeOfDecode : decode 0x1FFFFF00 = .ok (.init 15 255 255) ∧ decode 0x20FFFFFF = .ok (.enc 16777215) := by
  decide

theorem witness_PayloadLengthOfEveryWord : IllegalWord 0x21000010 ∧ ¬ IllegalWord 0x190F0000 ∧
    decode 0x190F0000 = .ok (.init 9 15 0) ∧
    ∃ t, exec (.init 9 15 0) (State.offered (List.replicate 15 0)) = .next t :=
  ⟨by unfold IllegalWord; decide, by unfold IllegalWord; decide, by decide, _, rfl⟩

theorem witness_StepRunsTheDecodedCommand :
    ((offers 0x20000002 2).requests = [⟨0x20000002, [0, 0]⟩] ∧ (offers 0x20000002 2).din = [] ∧
      decode 0x20000002 = .ok (.enc 2)) ∧
    State.reset.requests = [] ∧
    (({ offers 0x70000000 0 with din := [1] } : State).requests = [⟨0x70000000, []⟩] ∧
      ({ offers 0x70000000 0 with din := [1] } : State).din ≠ []) := by decide

/-- Every clause of R88. -/
theorem witness_IllegalWordsAreAnsweredInvalidCommand :
    (offers 0x70000000 0).requests = [⟨0x70000000, []⟩] ∧ (offers 0x70000000 0).din = [] ∧ IllegalWord 0x70000000 ∧
    IllegalWord 0x0FFFFFFF ∧ IllegalWord 0x10100001 ∧ IllegalWord 0x21000000 ∧ IllegalWord 0x38000000 ∧
    IllegalWord 0x48000000 ∧ IllegalWord 0x50000001 ∧ IllegalWord 0x60000001 := by
  refine ⟨rfl, rfl, ?_, ?_, ?_, ?_, ?_, ?_, ?_, ?_⟩ <;> (unfold IllegalWord; decide)

/-- A legal word with too few bytes, and an illegal one with one byte too many. -/
theorem witness_WrongPayloadLengthStops : State.reset.din.length ≠ (Instr.enc 1).paylen ∧
    ((offers 0x20000002 1).requests = [⟨0x20000002, [0]⟩] ∧ (offers 0x20000002 1).din = [] ∧
      ([0] : List Byte).length ≠ paylen 0x20000002) ∧
    ((offers 0x70000000 1).requests = [⟨0x70000000, [0]⟩] ∧ ([0] : List Byte).length ≠ paylen 0x70000000) := by decide

theorem witness_EveryCommandGetsOneResponse :
    (State.offered [0]).din.length = (Instr.enc 1).paylen ∧ State.reset.din.length = Instr.rdstat.paylen := by decide

theorem witness_RejectedCommandsWriteNoRegister : ∃ t r, step (offers 0x40000000 0) = .next t ∧
    t.responses = (offers 0x40000000 0).responses ++ [r] ∧ r.status ≠ okWord :=
  ⟨_, ⟨5, [], none⟩, rfl, rfl, by decide⟩

/-- One witness for each line of the priority list, at its boundary. -/
theorem witness_InitErrorPriority :
    ∀ p ∈ [((0x10100001 : CmdWord), 0), (0x100F0000, 15), (0x10110000, 17), (0x15101000, 32), (0x11100F00, 31),
        (0x14181100, 41), (0x14101000, 32), (0x10100700, 23)],
      (offers p.1 p.2).requests = [⟨p.1, List.replicate p.2 0⟩] ∧ (offers p.1 p.2).din = [] ∧ bits p.1 31 28 = 1 ∧
      (List.replicate p.2 (0 : Byte)).length = paylen p.1 := by decide +kernel

/-- One witness for each line of the priority lists, at its boundary. -/
theorem witness_OtherCommandsErrorPriority :
    ((offers 0x21000001 0).requests = [⟨0x21000001, []⟩] ∧ (offers 0x21000001 0).din = [] ∧ bits 0x21000001 31 28 = 2 ∧
      0 = paylen 0x21000001) ∧
    ((offers 0x30000000 0).requests = [⟨0x30000000, []⟩] ∧ bits 0x30000000 31 28 = 3 ∧ 0 = paylen 0x30000000) ∧
    ((offers 0x2000000F 15).requests = [⟨0x2000000F, List.replicate 15 0⟩] ∧ bits 0x2000000F 31 28 = 2 ∧
      (List.replicate 15 (0 : Byte)).length = paylen 0x2000000F) ∧
    ((offers 0x40000001 0).requests = [⟨0x40000001, []⟩] ∧ bits 0x40000001 31 28 = 4 ∧ bits 0x40000000 31 28 = 4 ∧
      0 = paylen 0x40000001 ∧ 0 = paylen 0x40000000) ∧
    ((offers 0x58000000 0).requests = [⟨0x58000000, []⟩] ∧ bits 0x58000000 31 28 = 5 ∧ bits 0x60000000 31 28 = 6 ∧
      0 = paylen 0x58000000 ∧ 0 = paylen 0x60000000) := by
  refine ⟨⟨rfl, rfl, ?_, ?_⟩, ⟨rfl, ?_, ?_⟩, ⟨rfl, ?_, ?_⟩, ⟨rfl, ?_, ?_, ?_, ?_⟩, ⟨rfl, ?_, ?_, ?_, ?_⟩⟩ <;> decide

theorem witness_RejectionRepeats : ∃ t, exec (.enc 1) (State.offered [7]) = .next t ∧
    t.responses = (State.offered [7]).responses ++ [⟨5, [], none⟩] ∧ (5 : CmdWord) ≠ okWord :=
  ⟨_, rfl, rfl, by decide⟩

theorem witness_InitBuildsTheSession :
    (bits 0x10100000 31 28 = 1 ∧ bits 0x10100001 31 28 = 1) ∧
    (State.offered (List.replicate 15 0)).din.length = 15 + 0 ∧ (State.offered (List.replicate 16 0)).din.length = 16 + 0 ∧
    (State.offered (List.replicate 31 0)).din.length = 16 + 15 ∧ (State.offered (List.replicate 40 0)).din.length = 24 + 16 := by
  decide

theorem witness_InitForgetsThePast :
    let s := State.offered (List.replicate 32 0)
    let s' := active .cbc (List.replicate 32 0)
    ∃ t t', exec (.init 1 16 16) s = .next t ∧ t.responses = s.responses ++ [⟨okWord, [], none⟩] ∧
      exec (.init 1 16 16) s' = .next t' ∧ t'.responses = s'.responses ++ [⟨okWord, [], none⟩] ∧
      s.din.take 16 = s'.din.take 16 ∧ s.din.drop 16 = s'.din.drop 16 :=
  have ⟨_, _, h⟩ := init_runs (State.offered (List.replicate 32 0)) rfl
  have ⟨_, _, h'⟩ := init_runs (active .cbc (List.replicate 32 0)) rfl
  ⟨_, _, h, rfl, h', rfl, rfl, rfl⟩

theorem witness_ResetRewindsTheSession :
    (active .cbc []).din = [] ∧ (active .cbc []).regs.valid = true ∧ State.reset.din = [] ∧ State.reset.regs.valid = false ∧
    bits 0x40000000 31 28 = 4 ∧
    ∃ t, exec (.init 1 16 16) (State.offered (List.replicate 32 0)) = .next t ∧
      t.responses = (State.offered (List.replicate 32 0)).responses ++ [⟨okWord, [], none⟩] :=
  have ⟨_, _, h⟩ := init_runs (State.offered (List.replicate 32 0)) rfl
  ⟨rfl, rfl, rfl, rfl, by decide, _, h, rfl⟩

theorem witness_ZeroizeClearsEverything :
    (active .ctr []).din = [] ∧ State.reset.din = [] ∧ bits 0x50000000 31 28 = 5 ∧ (7 : Nat) < 60 := by
  exact ⟨rfl, rfl, by decide, by decide⟩

theorem witness_RdstatReportsStatus :
    (active .ctr []).din = [] ∧ bits 0x60000000 31 28 = 6 ∧ ([1, 2, 3, 4, 5] : List Byte).length = 5 :=
  ⟨rfl, by decide, rfl⟩

/-- Two sessions with different IVs. -/
theorem witness_RdstatHidesTheKey :
    let s := active .cbc []
    let s' : State := { s with regs := { s.regs with iv0 := blk128 1, chain := blk128 2 } }
    ∃ t t' r r', exec .rdstat s = .next t ∧ exec .rdstat s' = .next t' ∧ t.responses = s.responses ++ [r] ∧
      t'.responses = s'.responses ++ [r'] ∧ s.regs.valid = s'.regs.valid ∧ s.regs.mode = s'.regs.mode ∧
      s.regs.nk = s'.regs.nk ∧ s.regs.pos = s'.regs.pos :=
  ⟨_, _, ⟨okWord, [], some _⟩, ⟨okWord, [], some _⟩, rfl, rfl, rfl, rfl, rfl, rfl, rfl, rfl⟩

/-- The key of the sessions of these tests is read back from `EK`. -/
theorem session_schedules (m : Mode) :
    (session m).ek = expandKey .k4 (session m).keyBytes ∧ (session m).dk = invSchedule .k4 (session m).ek := by
  have h : (session .ecb).keyBytes = List.replicate 16 0 := by decide +kernel
  have h' : (session m).keyBytes = (session .ecb).keyBytes := by cases m <;> rfl
  exact ⟨by rw [h', h]; rfl, rfl⟩

/-- Such a session meets the invariant of R32. -/
theorem session_inv (m : Mode) : (session m).Inv where
  empty h := by cases h
  active _ := ⟨KeyWords.noConfusion, session_schedules m⟩
  block _ := ⟨rfl, rfl⟩
  ecb h := by subst h; exact ⟨rfl, rfl⟩
  pos := Nat.le_refl 16
  keystream _ h := absurd h (Nat.lt_irrefl 16)

/-- An Active engine, in a stream mode, about to run a data command. -/
theorem witness_StepKeepsTheInvariant :
    let s : State := { active .ctr [] with requests := [⟨0x20000001, [7]⟩] }
    s.regs.Inv ∧ ∃ t, step s = .next t :=
  have ⟨_, _, h⟩ := data_runs .enc (active .ctr [7]) 1 rfl rfl (fun h => nomatch h)
  ⟨session_inv .ctr, _, (step_runs (active .ctr []) 0x20000001 [7] _ rfl (by decide)).trans h⟩

theorem witness_StepKeepsResponsesLegal :
    let s : State := { offers 0x70000000 0 with responses := [⟨5, [], none⟩] }
    (∀ r ∈ s.responses, r.Legal) ∧ ∃ t, step s = .next t :=
  ⟨fun _ hr => .inr ⟨.noSession, List.mem_singleton.mp hr⟩, _, rfl⟩

theorem witness_OnlyTheTableIsWritten :
    (∃ t, exec (Dir.enc.command 16) (active .ecb (List.replicate 16 0)) = .next t) ∧
    (∃ t, exec (Dir.dec.command 16) (active .cbc (List.replicate 16 0)) = .next t) ∧
    (∃ t, exec (Dir.dec.command 3) (active .cfb [1, 2, 3]) = .next t) ∧
    (∃ t, exec .reset (active .ctr []) = .next t) ∧ (∃ t, exec .rdstat (active .ofb []) = .next t) :=
  have ⟨_, _, h1⟩ := data_runs .enc (active .ecb (List.replicate 16 0)) 16 rfl rfl (fun _ => rfl)
  have ⟨_, _, h2⟩ := data_runs .dec (active .cbc (List.replicate 16 0)) 16 rfl rfl (fun _ => rfl)
  have ⟨_, _, h3⟩ := data_runs .dec (active .cfb [1, 2, 3]) 3 rfl rfl (fun h => nomatch h)
  ⟨⟨_, h1⟩, ⟨_, h2⟩, ⟨_, h3⟩, ⟨_, rfl⟩, ⟨_, rfl⟩⟩

theorem witness_OnlyInitAndZeroizeTouchTheKey :
    let s : State := { active .cbc [] with requests := [⟨0x40000000, []⟩] }
    (∃ t, step s = .next t) ∧ bits 0x40000000 31 28 ≠ 1 ∧ bits 0x40000000 31 28 ≠ 5 :=
  ⟨⟨_, rfl⟩, by decide, by decide⟩

theorem witness_OnlyInitStartsAndOnlyZeroizeEndsASession :
    (∃ t, step (offers 0x11101000 32) = .next t ∧ (offers 0x11101000 32).regs.valid = false ∧ t.regs.valid = true ∧
      t.responses = (offers 0x11101000 32).responses ++ [⟨okWord, [], none⟩]) ∧
    (let s : State := { active .cbc [] with requests := [⟨0x50000000, []⟩] }
     ∃ t, step s = .next t ∧ s.regs.valid = true ∧ t.regs.valid = false) :=
  have ⟨_, hv, h⟩ := init_runs (State.offered (List.replicate 32 0)) rfl
  ⟨⟨_, (step_runs State.reset 0x11101000 (List.replicate 32 0) _ rfl (by decide)).trans h, rfl, hv, rfl⟩, ⟨_, rfl, rfl, rfl⟩⟩

theorem witness_WhatFollowsTheStatusWord :
    (∃ t r, exec (Dir.enc.command 16) (active .ecb (List.replicate 16 0)) = .next t ∧
      t.responses = (active .ecb (List.replicate 16 0)).responses ++ [r] ∧ r.status = okWord) ∧
    (∃ t r, exec .rdstat State.reset = .next t ∧ t.responses = State.reset.responses ++ [r] ∧ r.status = okWord) ∧
    (∃ t r, step (offers 0x40000000 0) = .next t ∧ t.responses = (offers 0x40000000 0).responses ++ [r] ∧ r.status ≠ okWord) ∧
    (∃ t r, exec .zeroize State.reset = .next t ∧ t.responses = State.reset.responses ++ [r]) :=
  have ⟨_, _, h⟩ := data_runs .enc (active .ecb (List.replicate 16 0)) 16 rfl rfl (fun _ => rfl)
  ⟨⟨_, ⟨_, _, _⟩, h, rfl, rfl⟩, ⟨_, ⟨_, _, _⟩, rfl, rfl, rfl⟩,
    ⟨_, ⟨5, [], none⟩, rfl, rfl, by decide⟩, ⟨_, ⟨_, _, _⟩, rfl, rfl⟩⟩

theorem witness_SboxIsTheAlgebraicOne : gmul 0x53 0xca = 1 ∧ (0x53 : Byte) ≠ 0 ∧ sbox 0 = sbox 0 := by decide

theorem witness_ShiftRowsOnTheFlatIndex : (3 : Nat) < 4 ∧ (0 : Nat) < 4 := by decide

theorem witness_BlocksAreBigEndianIntegers : (2 ^ 128 - 1 : Nat) < 2 ^ 128 := by decide

theorem witness_CounterIncrement :
    (let B := blk128 0x00ffffffffffffffffffffffffffffff
     B.byte 0 ≠ 0xff ∧ ∀ j, 0 < j → j < 16 → B.byte j = 0xff) ∧
    (blk128 0xfe).byte 15 ≠ 0xff ∧
    (∀ j, j < 16 → (blk128 0xffffffffffffffffffffffffffffffff).byte j = 0xff) := by
  refine ⟨⟨by decide +kernel, fun j h0 h => ?_⟩, by decide +kernel, fun j h => ?_⟩
  · exact (by decide +kernel : ∀ j : Fin 16, 0 < j.val → (blk128 0x00ffffffffffffffffffffffffffffff).byte j = 0xff) ⟨j, h⟩ h0
  · exact (by decide +kernel : ∀ j : Fin 16, (blk128 0xffffffffffffffffffffffffffffffff).byte j = 0xff) ⟨j, h⟩

theorem witness_KeyStepOfEachIndex :
    (KeyWords.k8 ≠ .k0 ∧ KeyWords.k8.words ≤ 8 ∧ 8 % KeyWords.k8.words = 0) ∧
    (KeyWords.k8.words ≤ 12 ∧ 12 % KeyWords.k8.words ≠ 0 ∧ KeyWords.k8.words = 8 ∧ 12 % 8 = 4) ∧
    (KeyWords.k4 ≠ .k0 ∧ KeyWords.k4.words ≤ 5 ∧ 5 % KeyWords.k4.words ≠ 0 ∧ ¬ (KeyWords.k4.words = 8 ∧ 5 % 8 = 4)) := by decide

theorem witness_KeyExpansionRecurrence :
    KeyWords.k6 ≠ .k0 ∧ (List.replicate 24 (0 : Byte)).length = 4 * KeyWords.k6.words ∧ 5 < KeyWords.k6.words ∧
    KeyWords.k6.words ≤ 51 ∧ 51 < KeyWords.k6.scheduleWords ∧ KeyWords.k6.scheduleWords ≤ 52 ∧
    List.replicate 24 (0 : Byte) = List.replicate (4 * KeyWords.k6.words) 0 := by decide

theorem witness_InverseScheduleWords :
    KeyWords.k4 ≠ .k0 ∧ 4 ≤ 4 * KeyWords.k4.rounds - 1 ∧ 4 * KeyWords.k4.rounds ≤ 43 ∧ 43 ≤ 4 * KeyWords.k4.rounds + 3 ∧
    KeyWords.k4.scheduleWords ≤ 44 := by decide

theorem witness_BlockCoreWorkedExamples : KeyWords.k4 ≠ .k0 ∧ KeyWords.k6 ≠ .k0 ∧ KeyWords.k8 ≠ .k0 := by decide

theorem witness_EcbTransformsEachBlock :
    (active .ecb (List.replicate 32 0)).regs.valid = true ∧ (active .ecb (List.replicate 32 0)).regs.mode = .ecb ∧
    (active .ecb (List.replicate 32 0)).din.length = 16 * 2 := ⟨rfl, rfl, rfl⟩

theorem witness_CbcEncryptChains :
    (active .cbc (List.replicate 32 0)).regs.valid = true ∧ (active .cbc (List.replicate 32 0)).regs.mode = .cbc ∧
    (active .cbc (List.replicate 32 0)).din.length = 16 * 2 ∧ (active .cbc []).din.length = 16 * 0 := ⟨rfl, rfl, rfl, rfl⟩

theorem witness_CbcDecryptChains : 0 < 2 ∧ 0 + 1 < 2 ∧
    (active .cbc (List.replicate 32 0)).regs.valid = true ∧ (active .cbc (List.replicate 32 0)).regs.mode = .cbc ∧
    (active .cbc (List.replicate 32 0)).din.length = 16 * 2 := ⟨by decide, by decide, rfl, rfl, rfl⟩

theorem witness_StreamRunsTheByteLoop :
    (active .cfb [1, 2, 3]).regs.valid = true ∧ (active .cfb [1, 2, 3]).regs.mode = .cfb ∧
    (active .ofb [1]).regs.mode = .ofb ∧ (active .ctr []).regs.mode = .ctr ∧
    ({ session .ctr with pos := 15 } : Regs).pos.val < 16 ∧ (session .ctr).pos.val = 16 := ⟨rfl, rfl, rfl, rfl, by decide, rfl⟩

theorem witness_CfbBlockView :
    (active .cfb (List.replicate 32 0)).regs.valid = true ∧ (active .cfb (List.replicate 32 0)).regs.mode = .cfb ∧
    (active .cfb (List.replicate 32 0)).regs.pos = 16 ∧ 0 < 2 ∧
    (active .cfb (List.replicate 32 0)).din.length = 16 * 2 := ⟨rfl, rfl, rfl, by decide, rfl⟩

theorem witness_OfbBlockView :
    (active .ofb (List.replicate 32 0)).regs.valid = true ∧ (active .ofb (List.replicate 32 0)).regs.mode = .ofb ∧
    (active .ofb (List.replicate 32 0)).regs.pos = 16 ∧ 0 < 2 ∧
    (active .ofb (List.replicate 32 0)).din.length = 16 * 2 := ⟨rfl, rfl, rfl, by decide, rfl⟩

theorem witness_CtrBlockView :
    (active .ctr (List.replicate 32 0)).regs.valid = true ∧ (active .ctr (List.replicate 32 0)).regs.mode = .ctr ∧
    (active .ctr (List.replicate 32 0)).regs.pos = 16 ∧ 0 < 2 ∧
    (active .ctr (List.replicate 32 0)).din.length = 16 * 2 := ⟨rfl, rfl, rfl, by decide, rfl⟩

/-- After 5 bytes, 11 bytes short of the block's end. -/
theorem witness_CtrCounterAdvance :
    (session .ctr).Fresh ∧
    (let r : Regs := { session .ctr with chain := blk128 1, pos := 5 }
     r.valid = true ∧ r.mode = .ctr ∧ r.CtrProgress 5) := by
  refine ⟨⟨rfl, rfl, rfl⟩, rfl, rfl, ?_⟩
  unfold Regs.CtrProgress
  decide +kernel

theorem witness_OfbAndCtrHaveNoDirection : (active .ofb [1]).regs.mode = .ofb ∧ (active .ctr [1]).regs.mode = .ctr := ⟨rfl, rfl⟩

theorem witness_StreamModesIgnoreTheInverseSchedule : (active .cfb [1]).regs.mode.isBlock = false ∧
    ∃ t, exec (Dir.dec.command 1) (active .cfb [1]) = .next t :=
  have ⟨_, _, h⟩ := data_runs .dec (active .cfb [1]) 1 rfl rfl (fun h => nomatch h)
  ⟨rfl, _, h⟩

theorem witness_ZeroLengthChangesNothing : (active .ctr []).regs.valid = true ∧ (active .ctr []).din = [] := ⟨rfl, rfl⟩

theorem witness_ChunkingIsInvisible :
    let pieces : List (List Byte) := [List.replicate 16 0, [], List.replicate 32 1]
    (active .cbc []).regs.valid = true ∧ (active .cbc []).din = [] ∧ (active .cbc []).regs.mode.isBlock = true ∧
    (∀ p ∈ pieces, p.length % 16 = 0) ∧ pieces.flatten.length < 16777216 := ⟨rfl, rfl, rfl, by decide, by decide⟩

theorem witness_DecryptUndoesEncrypt :
    (active .cbc []).regs.Inv ∧ (active .cbc []).regs.valid = true ∧ (active .cbc []).regs.Fresh ∧
    ((active .cbc []).regs.mode.isBlock = true → (List.replicate 32 (7 : Byte)).length % 16 = 0) :=
  ⟨session_inv .cbc, rfl, ⟨rfl, rfl, rfl⟩, fun _ => rfl⟩

theorem witness_StepLeavesNoInputOver : (offers 0x60000000 0).din = [] ∧ ∃ t, step (offers 0x60000000 0) = .next t :=
  ⟨rfl, _, rfl⟩

end Sys2Proof.Tests
end

section
/-! PROOFS. O33: a byte sequence as a base-256 number, most significant byte first, and back (00_scope.md R17). -/

namespace Sys2Proof

open Machine

/-- The base-256 number of a byte sequence, most significant byte first: `be128` at any length. -/
def natOfBytes (l : List Byte) : Nat := l.foldl (fun n b => n * 256 + b.toNat) 0

theorem be128_eq_natOfBytes (B : Block) : be128 B = natOfBytes B.bytes := rfl

theorem blk128_eq_ofBytes (n : Nat) : blk128 n = Block.ofBytes (bytesBE 16 n) := rfl

@[simp] theorem bytesBE_length (k n : Nat) : (bytesBE k n).length = k := by simp [bytesBE]

@[simp] theorem natOfBytes_nil : natOfBytes [] = 0 := rfl

/-- The last byte is the least significant digit. -/
@[simp] theorem natOfBytes_concat (l : List Byte) (b : Byte) :
    natOfBytes (l ++ [b]) = natOfBytes l * 256 + b.toNat := by
  simp [natOfBytes]

/-- The last byte of `bytesBE` is the least significant digit, the bytes before it are those of the quotient. -/
theorem bytesBE_succ (k n : Nat) : bytesBE (k + 1) n = bytesBE k (n / 256) ++ [BitVec.ofNat 8 n] := by
  have hdigit : ∀ i ∈ List.range k,
      BitVec.ofNat 8 (n / 256 ^ (k - i)) = BitVec.ofNat 8 (n / 256 / 256 ^ (k - 1 - i)) := by
    intro i hi
    have hexp : k - i = k - 1 - i + 1 := by have := List.mem_range.mp hi; omega
    rw [hexp, Nat.pow_succ', Nat.div_div_eq_div_mul]
  simp only [bytesBE, List.range_succ, List.map_append, Nat.add_sub_cancel]
  rw [List.map_congr_left hdigit]
  simp

theorem natOfBytes_lt (l : List Byte) : natOfBytes l < 256 ^ l.length := by
  induction l using List.reverseRecOn with
  | nil => simp
  | append_singleton l b ih =>
    rw [natOfBytes_concat, List.length_append, List.length_singleton, Nat.pow_succ]
    have := b.isLt
    omega

/-- Cutting the number of a byte sequence into as many bytes gives the sequence back. -/
theorem bytesBE_natOfBytes (l : List Byte) : bytesBE l.length (natOfBytes l) = l := by
  induction l using List.reverseRecOn with
  | nil => rfl
  | append_singleton l b ih =>
    have hquot : (natOfBytes l * 256 + b.toNat) / 256 = natOfBytes l := by have := b.isLt; omega
    have hdigit : BitVec.ofNat 8 (natOfBytes l * 256 + b.toNat) = b := by
      apply BitVec.eq_of_toNat_eq
      have := b.isLt
      rw [BitVec.toNat_ofNat]
      omega
    rw [List.length_append, List.length_singleton, bytesBE_succ, natOfBytes_concat, hquot, hdigit, ih]

/-- The number of the `k` lowest digits of `n` is `n` modulo `256^k`. -/
theorem natOfBytes_bytesBE (k n : Nat) : natOfBytes (bytesBE k n) = n % 256 ^ k := by
  induction k generalizing n with
  | zero => simp [bytesBE, Nat.mod_one]
  | succ k ih =>
    rw [bytesBE_succ, natOfBytes_concat, ih, Nat.pow_succ', Nat.mod_mul, BitVec.toNat_ofNat]
    omega

/-- The number of a byte sequence is the sum of its bytes, each at the weight of its place. -/
theorem natOfBytes_eq_sum (l : List Byte) :
    natOfBytes l = ((List.range l.length).map fun i => (l.getD i 0).toNat * 256 ^ (l.length - 1 - i)).sum := by
  induction l using List.reverseRecOn with
  | nil => rfl
  | append_singleton l b ih =>
    have hterm : ∀ i ∈ List.range l.length, ((l ++ [b]).getD i 0).toNat * 256 ^ (l.length - i) =
        (l.getD i 0).toNat * 256 ^ (l.length - 1 - i) * 256 := by
      intro i hi
      have hlt := List.mem_range.mp hi
      have hexp : l.length - i = l.length - 1 - i + 1 := by omega
      rw [List.getD_append _ _ _ _ hlt, hexp, Nat.pow_succ, Nat.mul_assoc]
    rw [natOfBytes_concat, List.length_append, List.length_singleton, List.range_succ, List.map_append, List.sum_append,
      Nat.add_sub_cancel, List.map_congr_left hterm, List.sum_map_mul_right, ← ih]
    simp

/-- Settles O33: each clause is the fact about byte sequences of any length, at the 16 bytes of a block. -/
theorem blocksAreBigEndianIntegers : Obligations.BlocksAreBigEndianIntegers := by
  refine ⟨fun B => natOfBytes_eq_sum B.bytes, fun B => ⟨?_, ?_⟩, fun n hn => ?_⟩
  · calc be128 B < 256 ^ B.bytes.length := natOfBytes_lt B.bytes
      _ = 2 ^ 128 := by rw [Block.bytes_length]; norm_num
  · calc blk128 (be128 B) = Block.ofBytes (bytesBE B.bytes.length (natOfBytes B.bytes)) := rfl
      _ = B := by rw [bytesBE_natOfBytes, Block.ofBytes_bytes]
  · rw [be128_eq_natOfBytes, blk128_eq_ofBytes, Block.bytes_ofBytes (bytesBE_length 16 n), natOfBytes_bytesBE]
    exact Nat.mod_eq_of_lt hn

end Sys2Proof
end

section
/-! PROOFS. O28: `gmul` as the sum of R19, and its commutativity by bilinearity (00_scope.md R19). -/

namespace Sys2Proof.Machine

/-- A start value of a running exclusive or can be taken out of it. -/
theorem foldl_xor_start (l : List Byte) (a : Byte) : l.foldl (· ^^^ ·) a = a ^^^ l.foldl (· ^^^ ·) 0 := by
  have h := List.foldl_assoc (op := (· ^^^ · : Byte → Byte → Byte)) (l := l) (a₁ := a) (a₂ := 0)
  simpa using h

/-- `gmulBits` is the sum of R19 over the `n` low bits of `b`. -/
theorem gmulBits_eq_foldl (n : Nat) (a b : Byte) :
    gmulBits n a b = ((List.range n).map fun i => if b.getLsbD i then xtime^[i] a else 0).foldl (· ^^^ ·) 0 := by
  induction n generalizing a b with
  | zero => rfl
  | succ n ih =>
    rw [gmulBits, ih, List.range_succ_eq_map, List.map_cons, List.map_map, List.foldl_cons, foldl_xor_start _ (0 ^^^ _)]
    simp [Function.comp_def, Nat.add_comm]

/-- `gmulBits` is linear in its second argument as well. -/
theorem gmulBits_xor_right (n : Nat) (a b c : Byte) :
    gmulBits n a (b ^^^ c) = gmulBits n a b ^^^ gmulBits n a c := by
  induction n generalizing a b c with
  | zero => simp [gmulBits]
  | succ n ih =>
    have hbit : (if (b ^^^ c).getLsbD 0 then a else 0) =
        (if b.getLsbD 0 then a else 0) ^^^ (if c.getLsbD 0 then a else 0) := by
      rw [BitVec.getLsbD_xor]
      cases b.getLsbD 0 <;> cases c.getLsbD 0 <;> simp
    simp only [gmulBits, BitVec.ushiftRight_xor_distrib, ih, hbit]
    ac_rfl

theorem gmul_xor_right (a b c : Byte) : gmul a (b ^^^ c) = gmul a b ^^^ gmul a c := gmulBits_xor_right 8 a b c

/-- The `n + 1` low bits of a byte are its `n` low bits and bit `n`. -/
theorem setWidth_succ_eq_xor_twoPow (a : Byte) (n : Nat) :
    (a.setWidth (n + 1)).setWidth 8 =
      (a.setWidth n).setWidth 8 ^^^ (if a.getLsbD n then BitVec.twoPow 8 n else 0) := by
  apply BitVec.eq_of_getLsbD_eq
  intro j hj
  rcases lt_trichotomy j n with h | rfl | h
  · split <;> simp [h, hj, h.ne, Nat.lt_succ_of_lt h]
  · split <;> simp_all
  · split <;> simp [h.ne, h.not_gt, Nat.not_lt.mpr h]

/-- The eight powers of x span the bytes: what holds of 0 and of them, and is kept by the exclusive or, holds of every byte. -/
theorem byte_xor_induction {P : Byte → Prop} (zero : P 0) (pow : ∀ i : Fin 8, P (BitVec.twoPow 8 i))
    (xor : ∀ a b, P a → P b → P (a ^^^ b)) (a : Byte) : P a := by
  have low : ∀ n ≤ 8, P ((a.setWidth n).setWidth 8) := by
    intro n hn
    induction n with
    | zero => simpa [BitVec.of_length_zero] using zero
    | succ n ih =>
      rw [setWidth_succ_eq_xor_twoPow]
      refine xor _ _ (ih (by omega)) ?_
      split
      · exact pow ⟨n, hn⟩
      · exact zero
  simpa using low 8 le_rfl

@[simp] theorem gmul_zero (a : Byte) : gmul a 0 = 0 := by simp [gmul, gmulBits]
@[simp] theorem gmul_one (a : Byte) : gmul a 1 = a := by simp [gmul, gmulBits]

theorem gmul_twoPow_comm : ∀ i j : Fin 8,
    gmul (BitVec.twoPow 8 i) (BitVec.twoPow 8 j) = gmul (BitVec.twoPow 8 j) (BitVec.twoPow 8 i) := by
  decide

/-- `gmul` commutes on the powers of x, hence, being linear in each argument, on all bytes. -/
theorem gmul_comm (a b : Byte) : gmul a b = gmul b a := by
  induction a using byte_xor_induction with
  | zero => rw [gmul_zero, gmul_zero_left]
  | xor a a' ha ha' => rw [gmul_xor, gmul_xor_right, ha, ha']
  | pow i =>
    induction b using byte_xor_induction with
    | zero => rw [gmul_zero, gmul_zero_left]
    | xor b b' hb hb' => rw [gmul_xor, gmul_xor_right, hb, hb']
    | pow j => exact gmul_twoPow_comm i j

/-- Settles O28: the sum of R19, commutativity by bilinearity, the products by shift and reduction, and the examples. -/
theorem gfMultiplication : Obligations.GfMultiplication := by
  refine ⟨fun _ => rfl, gmulBits_eq_foldl 8, gmul_comm, fun a => ⟨gmul_one a, gmul_zero a, gmul_two a, ?_⟩, by decide⟩
  rw [gmul_three, BitVec.xor_comm]

end Sys2Proof.Machine
end

section
/-! PROOFS. O5, O7: what the decoder can give, illegal words, and the payload length of a word (30_encoding.md R86, R88). -/

namespace Sys2Proof

open Machine

/-- What the decoder can give for a word: one of the six commands, its fields as they stand and its reserved bits zero, or an
error for a word that R88 calls illegal. -/
inductive Decoded (w : CmdWord) : Except Illegal Instr → Prop where
  | init (hop : bits w 31 28 = 1) (hz : bits w 7 0 = 0) :
      Decoded w (.ok (.init (bits w 27 24) (bits w 23 16) (bits w 15 8)))
  | enc (hop : bits w 31 28 = 2) (hz : bits w 27 24 = 0) : Decoded w (.ok (.enc (bits w 23 0)))
  | dec (hop : bits w 31 28 = 3) (hz : bits w 27 24 = 0) : Decoded w (.ok (.dec (bits w 23 0)))
  | reset (hop : bits w 31 28 = 4) (hz : bits w 27 0 = 0) : Decoded w (.ok .reset)
  | zeroize (hop : bits w 31 28 = 5) (hz : bits w 27 0 = 0) : Decoded w (.ok .zeroize)
  | rdstat (hop : bits w 31 28 = 6) (hz : bits w 27 0 = 0) : Decoded w (.ok .rdstat)
  | illegal (e : Illegal) (h : IllegalWord w) : Decoded w (.error e)

theorem unlessReserved_cases {P : Except Illegal Instr → Prop} {reserved : Nat} {i : Instr}
    (hz : reserved = 0 → P (.ok i)) (hn : reserved ≠ 0 → P (.error .reservedBits)) : P (unlessReserved reserved i) := by
  unfold unlessReserved
  split
  · next h => exact hz h
  · next h => exact hn h

theorem decode_decoded (w : CmdWord) : Decoded w (decode w) := by
  unfold decode
  split
  · next hop => exact unlessReserved_cases (.init hop) fun hn => .illegal _ (by simp [IllegalWord, hop, hn])
  · next hop => exact unlessReserved_cases (.enc hop) fun hn => .illegal _ (by simp [IllegalWord, hop, hn])
  · next hop => exact unlessReserved_cases (.dec hop) fun hn => .illegal _ (by simp [IllegalWord, hop, hn])
  · next hop => exact unlessReserved_cases (.reset hop) fun hn => .illegal _ (by simp [IllegalWord, hop, hn])
  · next hop => exact unlessReserved_cases (.zeroize hop) fun hn => .illegal _ (by simp [IllegalWord, hop, hn])
  · next hop => exact unlessReserved_cases (.rdstat hop) fun hn => .illegal _ (by simp [IllegalWord, hop, hn])
  · next h1 h2 h3 h4 h5 h6 =>
    simp only [imp_false] at h1 h2 h3 h4 h5 h6
    have hop : bits w 31 28 = 0 ∨ 7 ≤ bits w 31 28 := by omega
    exact .illegal _ (hop.imp_right .inl)

/-- The inversion rule for a known result of the decoder: splitting it gives the fields of the word. -/
theorem decoded_of_decode {w : CmdWord} {d : Except Illegal Instr} (h : decode w = d) : Decoded w d :=
  h ▸ decode_decoded w

/-- R88 calls no word illegal that has a command's opcode and zeros in its reserved bits. -/
theorem Decoded.not_illegalWord {w : CmdWord} {i : Instr} (h : Decoded w (.ok i)) : ¬ IllegalWord w := by
  cases h with
  | init hop hz | enc hop hz | dec hop hz | reset hop hz | zeroize hop hz | rdstat hop hz =>
    simp [IllegalWord, hop, hz]

theorem illegalWord_iff_decode_error (w : CmdWord) : IllegalWord w ↔ ∃ e, decode w = .error e := by
  cases hd : decode w with
  | ok i => simpa using (decoded_of_decode hd).not_illegalWord
  | error e =>
    cases decoded_of_decode hd with
    | illegal _ hw => simpa using hw

theorem paylen_of_decode_ok {w : CmdWord} {i : Instr} (h : decode w = .ok i) : paylen w = i.paylen := by
  simp [paylen, h]

theorem paylen_of_decode_error {w : CmdWord} {e : Illegal} (h : decode w = .error e) : paylen w = 0 := by
  simp [paylen, h]

/-- The payload length a command declares, from the fields of its word (30_encoding.md R86). -/
theorem Decoded.paylen_eq {w : CmdWord} {i : Instr} (h : Decoded w (.ok i)) :
    i.paylen =
      if bits w 31 28 = 1 then bits w 23 16 + bits w 15 8
      else if bits w 31 28 = 2 ∨ bits w 31 28 = 3 then bits w 23 0
      else 0 := by
  cases h with
  | init hop _ | enc hop _ | dec hop _ | reset hop _ | zeroize hop _ | rdstat hop _ => simp [hop, Instr.paylen]

/-- Settles O5: the decoder's cases give the declared length, and a completed command had exactly its declared payload. -/
theorem payloadLengthOfEveryWord : Obligations.PayloadLengthOfEveryWord := by
  refine fun w => ⟨fun hw => ?_, fun hw => ?_, fun i s t hd hx => ?_⟩
  · obtain ⟨e, he⟩ := (illegalWord_iff_decode_error w).mp hw
    exact paylen_of_decode_error he
  · cases hd : decode w with
    | ok i => rw [paylen_of_decode_ok hd, (decoded_of_decode hd).paylen_eq]
    | error e => exact absurd ((illegalWord_iff_decode_error w).mpr ⟨e, hd⟩) hw
  · obtain ⟨hlen, hc⟩ := exec_completes hx
    exact ⟨hlen.trans (paylen_of_decode_ok hd).symm, hc.ports.2⟩

/-- An illegal word at the head of the port, with no payload, is answered `InvalidCommand` (60_exceptions.md R265). -/
theorem step_illegal {s : State} {w : CmdWord} {rest : List Request} {e : Illegal} (hr : s.requests = ⟨w, []⟩ :: rest)
    (hdin : s.din = []) (he : decode w = .error e) :
    step s = .next (State.raise { s with requests := rest } .invalidCommand) := by
  have hfetch : fetch s = .illegal { s with requests := rest } := by
    cases s
    subst hr hdin
    simp [fetch, he]
  rw [step, hfetch]
  exact answerIllegal_next.mpr ⟨hdin, rfl⟩

/-- Settles O7: the decoder's errors are the illegal words, and the step answers each with code 6. -/
theorem illegalWordsAreAnsweredInvalidCommand : Obligations.IllegalWordsAreAnsweredInvalidCommand := by
  refine ⟨illegalWord_iff_decode_error, fun s w rest hr hdin hw => ?_⟩
  obtain ⟨e, he⟩ := (illegalWord_iff_decode_error w).mp hw
  exact step_illegal hr hdin he

end Sys2Proof
end

section
/-! PROOFS. O27: the response a command or a step adds, and what it holds after its status word (30_encoding.md R92). -/

namespace Sys2Proof.Machine

/-- The checks of `ENC` and `DEC` pass exactly on a valid session, aligned in a block mode. -/
theorem dataError_eq_none_iff {r : Regs} {n : Nat} :
    dataError r n = none ↔ r.valid = true ∧ (r.mode.isBlock = true → n % 16 = 0) := by
  refine ⟨fun h => ?_, fun ⟨hv, ha⟩ => dataError_none hv ha⟩
  unfold dataError at h
  split at h
  · cases h
  · split at h
    · cases h
    · next hv ha => exact ⟨by simpa using hv, by simpa using ha⟩

@[simp] theorem paylen_command (dir : Dir) (n : Nat) : (dir.command n).paylen = n := by cases dir <;> rfl

/-- A data command on its declared payload, all checks passed (42_mode_engine.md R181, R182). -/
theorem exec_command_ok {dir : Dir} {n : Nat} {s : State} (h : s.din.length = n) (hc : dataError s.regs n = none) :
    exec (dir.command n) s = .next (s.respond (crypt dir s.regs s.din).2 (crypt dir s.regs s.din).1 none) := by
  cases dir with
  | enc => exact execEnc_ok h hc
  | dec => exact execDec_ok h hc

/-- A data command on its declared payload, a check failed. -/
theorem exec_command_error {dir : Dir} {n : Nat} {s : State} {e : Err} (h : s.din.length = n)
    (hc : dataError s.regs n = some e) : exec (dir.command n) s = .next (s.raise e) := by
  cases dir with
  | enc => exact execEnc_error h hc
  | dec => exact execDec_error h hc

/-- What a data command that completes can do: be rejected by a check, or answer with the mode engine's output. -/
theorem exec_command_cases {dir : Dir} {n : Nat} {s t : State} (h : exec (dir.command n) s = .next t) :
    (∃ e, dataError s.regs n = some e ∧ t = s.raise e) ∨
    (dataError s.regs n = none ∧ s.din.length = n ∧
      t = s.respond (crypt dir s.regs s.din).2 (crypt dir s.regs s.din).1 none) := by
  have hl : s.din.length = n := by simpa using (exec_completes h).1
  cases hc : dataError s.regs n with
  | some e =>
    rw [exec_command_error hl hc] at h
    cases h
    exact .inl ⟨e, rfl, rfl⟩
  | none =>
    rw [exec_command_ok hl hc] at h
    cases h
    exact .inr ⟨rfl, hl, rfl⟩

/-- An `RDSTAT` that completes reports `STATUS` and changes no register (43_session_commands.md R240). -/
theorem exec_rdstat_next {s t : State} (h : exec .rdstat s = .next t) : t = s.respond s.regs [] (some s.regs.status) := by
  simp only [exec, execRdstat] at h
  exact (withPayload_next.mp h).2.symm

/-- A command other than `ENC`, `DEC` and `RDSTAT` answers with a status word alone, accepted or rejected. -/
theorem exec_status_only {i : Instr} {s t : State} (h : exec i s = .next t)
    (hi : ¬ (i = .rdstat ∨ ∃ (dir : Dir) (n : Nat), i = dir.command n)) :
    ∃ status, t.responses = s.responses ++ [⟨status, [], none⟩] := by
  cases i with
  | init mode klen ivlen =>
    simp only [exec, execInit] at h
    obtain ⟨-, rfl⟩ := withPayload_next.mp h
    split
    · exact ⟨_, rfl⟩
    · exact ⟨_, rfl⟩
  | enc n => exact absurd (.inr ⟨.enc, n, rfl⟩) hi
  | dec n => exact absurd (.inr ⟨.dec, n, rfl⟩) hi
  | reset =>
    simp only [exec, execReset] at h
    obtain ⟨-, rfl⟩ := withPayload_next.mp h
    split
    · exact ⟨_, rfl⟩
    · exact ⟨_, rfl⟩
  | zeroize =>
    simp only [exec, execZeroize] at h
    obtain ⟨-, rfl⟩ := withPayload_next.mp h
    exact ⟨_, rfl⟩
  | rdstat => exact absurd (.inl rfl) hi

/-- A completed command adds exactly one response, a legal one (30_encoding.md R91). -/
theorem Completes.response {s t : State} (h : Completes s t) : ∃ r, t.responses = s.responses ++ [r] ∧ r.Legal := by
  cases h with
  | rejected e _ => exact ⟨_, rfl, .inr ⟨e, rfl⟩⟩
  | ok regs dout extra => exact ⟨_, rfl, .inl rfl⟩

/-- What is added to the responses given before is read off the responses in one way only. -/
theorem response_eq {rs ts : List Response} {r r' : Response} (h : ts = rs ++ [r]) (h' : ts = rs ++ [r']) : r = r' := by
  simpa using h.symm.trans h'

/-- The response a step adds is a legal one. -/
theorem step_response_legal {s t : State} {r : Response} (h : step s = .next t) (hr : t.responses = s.responses ++ [r]) :
    r.Legal := by
  obtain ⟨-, rfl⟩ | ⟨_, rest, _, -, -, -, -, rfl⟩ | ⟨q, rest, i, -, -, -, hx⟩ := step_cases h
  · simp at hr
  · exact .inr ⟨_, response_eq hr rfl⟩
  · obtain ⟨r', hr', hlegal⟩ := (exec_completes hx).2.response
    exact response_eq hr hr' ▸ hlegal

/-- A legal response with another code than 0 ends with its status word (30_encoding.md R92). -/
theorem Response.Legal.of_ne_ok {r : Response} (h : r.Legal) (hne : r.status ≠ okWord) :
    ∃ e : Err, r = ⟨e.word, [], none⟩ := h.resolve_left hne

/-- Settles O27: a rejection has nothing after its code by the legality of responses; the rest is what each command answers. -/
theorem whatFollowsTheStatusWord : Obligations.WhatFollowsTheStatusWord := by
  refine ⟨fun s t r h hr hne => ?_, fun i s t r h hr => ⟨?_, ?_, fun hi => ?_⟩⟩
  · obtain ⟨e, rfl⟩ := (step_response_legal h hr).of_ne_ok hne
    exact ⟨rfl, rfl⟩
  · rintro dir n rfl hok
    obtain ⟨e, -, rfl⟩ | ⟨hc, hl, rfl⟩ := exec_command_cases h
    · rw [response_eq hr rfl] at hok
      exact absurd hok (word_ne_ok e)
    · rw [response_eq hr rfl]
      have ha := (dataError_eq_none_iff.mp hc).2
      exact ⟨(crypt_length dir s.regs s.din (hl.symm ▸ ha)).trans hl, rfl⟩
  · rintro rfl -
    obtain rfl := exec_rdstat_next h
    rw [response_eq hr rfl]
    exact ⟨rfl, rfl⟩
  · obtain ⟨status, ht⟩ := exec_status_only h hi
    rw [response_eq hr ht]
    exact ⟨rfl, rfl⟩

end Sys2Proof.Machine
end

section
/-! PROOFS. O35, O36, O37: the key steps, `KeyExpansion` word by word, and the inverse schedule (40_key_schedule.md R116 to
R118, R124). -/

namespace Sys2Proof.Machine

/-! ## Counts of words (40_key_schedule.md R111) -/

theorem KeyWords.words_pos {k : KeyWords} (hk : k ≠ .k0) : 0 < k.words := by
  cases k with
  | k0 => exact absurd rfl hk
  | k4 | k6 | k8 => decide

theorem KeyWords.words_lt_scheduleWords (k : KeyWords) : k.words < k.scheduleWords := by
  unfold KeyWords.scheduleWords KeyWords.rounds
  omega

theorem KeyWords.scheduleWords_le (k : KeyWords) : k.scheduleWords ≤ 60 := by cases k <;> decide

theorem KeyWords.scheduleWords_eq (k : KeyWords) : k.scheduleWords = 4 * k.rounds + 4 := rfl

/-! ## The step at an index (R116, R117) -/

theorem stepKind_full {i nk : Nat} (h : i % nk = 0) : stepKind i nk = .full := if_pos h

theorem stepKind_sub {i nk : Nat} (h : i % nk ≠ 0) (hs : nk = 8 ∧ i % 8 = 4) : stepKind i nk = .sub := by
  rw [stepKind, if_neg h, if_pos hs]

theorem stepKind_none {i nk : Nat} (h : i % nk ≠ 0) (hs : ¬ (nk = 8 ∧ i % 8 = 4)) : stepKind i nk = .none := by
  rw [stepKind, if_neg h, if_neg hs]

theorem stepWord_full {i nk : Nat} (h : stepKind i nk = .full) (p : Word) :
    stepWord i nk p = (subWord (rotWord p)).xor (rcon (i / nk)) := by
  rw [stepWord, h]

theorem stepWord_sub {i nk : Nat} (h : stepKind i nk = .sub) (p : Word) : stepWord i nk p = subWord p := by
  rw [stepWord, h]

theorem stepWord_none {i nk : Nat} (h : stepKind i nk = .none) (p : Word) : stepWord i nk p = p := by
  rw [stepWord, h]

/-- Settles O35: the step at an index decides the transformed word. -/
theorem keyStepOfEachIndex : Obligations.KeyStepOfEachIndex := by
  refine ⟨fun k i p _ _ => ⟨fun h => ?_, fun h h8 h4 => ?_, fun h hs => ?_⟩, fun _ => rfl, by decide +kernel⟩
  · have hk := stepKind_full h
    exact ⟨hk, stepWord_full hk p⟩
  · have hk := stepKind_sub h ⟨h8, h4⟩
    exact ⟨hk, stepWord_sub hk p⟩
  · have hk := stepKind_none h hs
    exact ⟨hk, stepWord_none hk p⟩

/-! ## `KeyExpansion` (R118) -/

/-- A filled key RAM holds zero words above its list. -/
theorem word_ofWords_above {ws : List Word} {i : Nat} (hl : ws.length ≤ i) (hi : i < 60) :
    (Schedule.ofWords ws).word i = Word.zero := by
  rw [word_ofWords ws hi, List.getD_eq_default _ _ hl]

/-- Without a computed word the list holds the key words. -/
theorem expandWords_zero_getD (key : List Byte) {nk i : Nat} (h : i < nk) :
    (expandWords nk key 0).getD i Word.zero = keyword key i := by
  simp [expandWords, h]

/-- The word computed last is the one of the recurrence. -/
theorem expandWords_succ_getD (nk : Nat) (key : List Byte) (n : Nat) :
    (expandWords nk key (n + 1)).getD (nk + n) Word.zero =
      ((expandWords nk key n).getD (nk + n - nk) Word.zero).xor
        (stepWord (nk + n) nk ((expandWords nk key n).getD (nk + n - 1) Word.zero)) := by
  rw [expandWords, List.getD_append_right _ _ _ _ (by simp)]
  simp

/-- `EK` agrees with every shorter run of the recurrence on the words that run has made. -/
theorem expandKey_word (k : KeyWords) (key : List Byte) {n i : Nat} (hi : i < k.words + n)
    (hn : k.words + n ≤ k.scheduleWords) :
    (expandKey k key).word i = (expandWords k.words key n).getD i Word.zero := by
  have h60 := k.scheduleWords_le
  obtain ⟨d, hd⟩ : ∃ d, k.scheduleWords - k.words = n + d := ⟨k.scheduleWords - k.words - n, by omega⟩
  rw [expandKey, word_ofWords _ (by omega), hd, expandWords_prefix _ _ _ _ _ hi]

theorem expandKey_word_key (k : KeyWords) (key : List Byte) {i : Nat} (hi : i < k.words) :
    (expandKey k key).word i = keyword key i := by
  rw [expandKey_word k key (n := 0) hi k.words_lt_scheduleWords.le, expandWords_zero_getD key hi]

theorem expandKey_word_step {k : KeyWords} (hk : k ≠ .k0) (key : List Byte) {i : Nat} (hi : k.words ≤ i)
    (hw : i < k.scheduleWords) :
    (expandKey k key).word i =
      ((expandKey k key).word (i - k.words)).xor (stepWord i k.words ((expandKey k key).word (i - 1))) := by
  have hpos := KeyWords.words_pos hk
  obtain ⟨n, rfl⟩ := Nat.exists_eq_add_of_le hi
  rw [expandKey_word k key (n := n + 1) (by omega) hw, expandKey_word k key (n := n) (by omega) (by omega),
    expandKey_word k key (n := n) (by omega) (by omega), expandWords_succ_getD]

theorem expandKey_word_above (k : KeyWords) (key : List Byte) {i : Nat} (hw : k.scheduleWords ≤ i) (hi : i < 60) :
    (expandKey k key).word i = Word.zero := by
  have hlt := k.words_lt_scheduleWords
  exact word_ofWords_above (by rw [expandWords_length]; omega) hi

theorem keyword_replicate_zero (n i : Nat) : keyword (List.replicate n 0) i = Word.zero := by
  have h (j : Nat) : (List.replicate n (0 : Byte)).getD j 0 = 0 := by
    rw [List.getD_eq_getElem?_getD, List.getElem?_replicate]
    split <;> rfl
  simp only [keyword, wordAt, h, Word.zero]

/-- The first computed word of the all-zero key: two zero words and the first `FULL` step, the same for each key length. -/
theorem expandKey_replicate_zero_word {k : KeyWords} (hk : k ≠ .k0) (n : Nat) :
    (expandKey k (List.replicate n 0)).word k.words = ⟨0x62, 0x63, 0x63, 0x63⟩ := by
  have hpos := KeyWords.words_pos hk
  calc (expandKey k (List.replicate n 0)).word k.words
    _ = Word.zero.xor (stepWord k.words k.words Word.zero) := by
      rw [expandKey_word_step hk _ le_rfl k.words_lt_scheduleWords, expandKey_word_key _ _ (by omega),
        expandKey_word_key _ _ (by omega), keyword_replicate_zero, keyword_replicate_zero]
    _ = (subWord (rotWord Word.zero)).xor (rcon 1) := by
      rw [Word.zero_xor, stepWord_full (stepKind_full (Nat.mod_self _)), Nat.div_self hpos]
    _ = ⟨0x62, 0x63, 0x63, 0x63⟩ := by decide

/-- Settles O36: each range of indexes by its own lemma, the worked example by evaluation. -/
theorem keyExpansionRecurrence : Obligations.KeyExpansionRecurrence := by
  refine ⟨fun k key hk _ => ⟨fun i hi => expandKey_word_key k key hi, fun i hi hw => expandKey_word_step hk key hi hw,
    fun i hw hi => expandKey_word_above k key hw (Nat.lt_succ_of_le hi), fun hz => ?_⟩, by decide +kernel⟩
  exact hz ▸ expandKey_replicate_zero_word hk _

/-! ## The inverse schedule (R124) -/

theorem invScheduleWord_middle {nr i : Nat} (ek : Schedule) (h : 4 ≤ i ∧ i < 4 * nr) :
    invScheduleWord nr ek i = invMixWord (ek.word i) := if_pos h

theorem invScheduleWord_outer {nr i : Nat} (ek : Schedule) (h : ¬ (4 ≤ i ∧ i < 4 * nr)) :
    invScheduleWord nr ek i = ek.word i := if_neg h

theorem invSchedule_word (k : KeyWords) (ek : Schedule) {i : Nat} (h : i < k.scheduleWords) :
    (invSchedule k ek).word i = invScheduleWord k.rounds ek i := by
  rw [invSchedule, word_ofWords _ (h.trans_le k.scheduleWords_le)]
  simp [h]

theorem invSchedule_word_above (k : KeyWords) (ek : Schedule) {i : Nat} (h : k.scheduleWords ≤ i) (hi : i < 60) :
    (invSchedule k ek).word i = Word.zero :=
  word_ofWords_above (by simpa using h) hi

/-- Settles O37: a word below `NW` is copied or mixed by its round, those above are the zero fill. -/
theorem inverseScheduleWords : Obligations.InverseScheduleWords := by
  refine ⟨fun k ek _ => ⟨fun i hi => ?_, fun i h4 hi => ?_, fun i hr hi => ?_, fun i hw hi => ?_⟩, by decide +kernel⟩
  · rw [invSchedule_word k ek (by rw [k.scheduleWords_eq]; omega), invScheduleWord_outer ek (by omega)]
  · rw [invSchedule_word k ek (by rw [k.scheduleWords_eq]; omega), invScheduleWord_middle ek (by omega)]
  · rw [invSchedule_word k ek (by rw [k.scheduleWords_eq]; omega), invScheduleWord_outer ek (by omega)]
  · exact invSchedule_word_above k ek hw (Nat.lt_succ_of_le hi)

end Sys2Proof.Machine
end

section
/-! PROOFS. O29, O30: the S-box from the inverse of the field, and its inverse permutation (41_block_transform.md R141,
R142). -/

namespace Sys2Proof.Machine

/-! ## The field inverse -/

theorem gmul_twoPow_assoc : ∀ i j k : Fin 8,
    gmul (gmul (BitVec.twoPow 8 i) (BitVec.twoPow 8 j)) (BitVec.twoPow 8 k) =
      gmul (BitVec.twoPow 8 i) (gmul (BitVec.twoPow 8 j) (BitVec.twoPow 8 k)) := by
  decide +kernel

/-- `gmul` is associative on the powers of x, hence, being linear in each argument, on all bytes. -/
theorem gmul_assoc (a b c : Byte) : gmul (gmul a b) c = gmul a (gmul b c) := by
  induction a using byte_xor_induction with
  | zero => simp only [gmul_zero_left]
  | xor a a' ha ha' => simp only [gmul_xor, ha, ha']
  | pow i =>
    induction b using byte_xor_induction with
    | zero => simp only [gmul_zero, gmul_zero_left]
    | xor b b' hb hb' => simp only [gmul_xor, gmul_xor_right, hb, hb']
    | pow j =>
      induction c using byte_xor_induction with
      | zero => simp only [gmul_zero]
      | xor c c' hc hc' => simp only [gmul_xor_right, hc, hc']
      | pow k => exact gmul_twoPow_assoc i j k

/-- A byte has at most one multiplicative inverse. -/
theorem gmul_inverse_unique {a b c : Byte} (hb : gmul a b = 1) (hc : gmul a c = 1) : b = c := by
  calc b = gmul b (gmul a c) := by rw [hc, gmul_one]
    _ = gmul (gmul a b) c := by rw [← gmul_assoc, gmul_comm b a]
    _ = c := by rw [hb, gmul_comm, gmul_one]

/-! ## The S-box (R141) -/

/-- The affine map of R141. -/
def affine (b : Byte) : Byte :=
  b ^^^ b.rotateLeft 1 ^^^ b.rotateLeft 2 ^^^ b.rotateLeft 3 ^^^ b.rotateLeft 4 ^^^ 0x63

/-- The byte whose affine image is entry `a` of the S-box, by the inverse of the affine map. -/
def sboxSource (a : Byte) : Byte :=
  (sbox a).rotateLeft 1 ^^^ (sbox a).rotateLeft 3 ^^^ (sbox a).rotateLeft 6 ^^^ 0x05

theorem affine_sboxSource : ∀ a : Byte, affine (sboxSource a) = sbox a := by decide +kernel

/-- Entry by entry, the S-box was made from the inverse of its index. -/
theorem gmul_sboxSource : ∀ a : Byte, a ≠ 0 → gmul a (sboxSource a) = 1 := by decide +kernel

theorem sboxSource_eq_of_inverse {a b : Byte} (h : a = 0 ∧ b = 0 ∨ gmul a b = 1) : sboxSource a = b := by
  rcases h with ⟨rfl, rfl⟩ | h
  · decide
  · have ha : a ≠ 0 := by
      rintro rfl
      rw [gmul_zero_left] at h
      exact absurd h (by decide)
    exact gmul_inverse_unique (gmul_sboxSource a ha) h

theorem sbox_ne_self : ∀ a : Byte, sbox a ≠ a := by decide +kernel

/-! ## The inverse S-box (R142) -/

@[simp] theorem invSbox_sbox : ∀ a : Byte, invSbox (sbox a) = a := by decide +kernel

@[simp] theorem sbox_invSbox : ∀ a : Byte, sbox (invSbox a) = a := by decide +kernel

/-- Settles O30: both compositions byte by byte, and the two entries. -/
theorem inverseSboxUndoesSbox : Obligations.InverseSboxUndoesSbox :=
  ⟨invSbox_sbox, sbox_invSbox, by decide⟩

/-- Settles O29: the inverse of the index is unique, so it is the byte the entry was made from; `INVSBOX` makes the entries
differ. -/
theorem sboxIsTheAlgebraicOne : Obligations.SboxIsTheAlgebraicOne := by
  refine ⟨fun a b h => ?_, fun a ha => ⟨_, gmul_sboxSource a ha⟩, sbox_ne_self, fun a b h => ?_, by decide⟩
  · rw [← sboxSource_eq_of_inverse h]
    exact (affine_sboxSource a).symm
  · exact Function.LeftInverse.injective invSbox_sbox h

end Sys2Proof.Machine
end

section
/-! PROOFS. O31, O32: the row shifts on the flat index, and the column mixings (41_block_transform.md R145, R151, R153). -/

namespace Sys2Proof.Machine

/-! ## The row shifts -/

@[simp] theorem invShiftRows_shiftRows (B : Block) : invShiftRows (shiftRows B) = B := rfl

@[simp] theorem shiftRows_invShiftRows (B : Block) : shiftRows (invShiftRows B) = B := rfl

/-- `ShiftRows` on the flat index (R145). -/
theorem shiftRows_byte (B : Block) {r c : Nat} (hr : r < 4) (hc : c < 4) :
    (shiftRows B).byte (r + 4 * c) = B.byte (r + 4 * ((c + r) % 4)) := by
  interval_cases r <;> interval_cases c <;> rfl

/-- `InvShiftRows` on the flat index (R151). -/
theorem invShiftRows_byte (B : Block) {r c : Nat} (hr : r < 4) (hc : c < 4) :
    (invShiftRows B).byte (r + 4 * c) = B.byte (r + 4 * ((c + 4 - r) % 4)) := by
  interval_cases r <;> interval_cases c <;> rfl

/-- Settles O31: the sixteen places of each shift, and the examples by evaluation. -/
theorem shiftRowsOnTheFlatIndex : Obligations.ShiftRowsOnTheFlatIndex := by
  refine ⟨fun B => ⟨fun r c hr hc => shiftRows_byte B hr hc, fun r c hr hc => invShiftRows_byte B hr hc,
    invShiftRows_shiftRows B⟩, ?_, ?_⟩
  · decide
  · decide

/-! ## The column mixings

Both are linear, so what they do to a column follows from what they do to the 32 columns with a single bit. -/

/-- The column whose only nonzero byte is `b`, in row `r`. -/
def inRow (r : Fin 4) (b : Byte) : Word :=
  match r with
  | 0 => ⟨b, 0, 0, 0⟩
  | 1 => ⟨0, b, 0, 0⟩
  | 2 => ⟨0, 0, b, 0⟩
  | 3 => ⟨0, 0, 0, b⟩

theorem inRow_zero (r : Fin 4) : inRow r 0 = Word.zero := by
  fin_cases r <;> rfl

theorem inRow_xor (r : Fin 4) (a b : Byte) : inRow r (a ^^^ b) = (inRow r a).xor (inRow r b) := by
  fin_cases r <;> simp [inRow, Word.xor]

theorem word_eq_xor_inRow (w : Word) :
    w = (((inRow 0 w.b0).xor (inRow 1 w.b1)).xor (inRow 2 w.b2)).xor (inRow 3 w.b3) := by
  simp [inRow, Word.xor]

/-- The single bits span the words: what holds of 0 and of them, and is kept by the exclusive or, holds of every word. -/
theorem word_xor_induction {P : Word → Prop} (zero : P Word.zero)
    (bit : ∀ (r : Fin 4) (i : Fin 8), P (inRow r (BitVec.twoPow 8 i)))
    (xor : ∀ a b, P a → P b → P (a.xor b)) (w : Word) : P w := by
  have row (r : Fin 4) (b : Byte) : P (inRow r b) := by
    induction b using byte_xor_induction with
    | zero => rwa [inRow_zero]
    | pow i => exact bit r i
    | xor a b ha hb => rw [inRow_xor]; exact xor _ _ ha hb
  rw [word_eq_xor_inRow w]
  exact xor _ _ (xor _ _ (xor _ _ (row 0 _) (row 1 _)) (row 2 _)) (row 3 _)

theorem invMixColumn_mixColumn (w : Word) : invMixColumn (mixColumn w) = w := by
  induction w using word_xor_induction with
  | zero => decide
  | bit r i => revert r i; decide +kernel
  | xor a b ha hb => rw [mixColumn_xor, invMixColumn_xor, ha, hb]

theorem mixColumn_invMixColumn (w : Word) : mixColumn (invMixColumn w) = w := by
  induction w using word_xor_induction with
  | zero => decide
  | bit r i => revert r i; decide +kernel
  | xor a b ha hb => rw [invMixColumn_xor, mixColumn_xor, ha, hb]

@[simp] theorem invMixColumns_mixColumns (B : Block) : invMixColumns (mixColumns B) = B := by
  simp only [invMixColumns, mixColumns, mapColumns, invMixColumn_mixColumn]

@[simp] theorem mixColumns_invMixColumns (B : Block) : mixColumns (invMixColumns B) = B := by
  simp only [invMixColumns, mixColumns, mapColumns, mixColumn_invMixColumn]

/-- `InvMixColumns` is linear (R153). -/
theorem invMixColumns_xor (A B : Block) : invMixColumns (A.xor B) = (invMixColumns A).xor (invMixColumns B) := by
  simp only [invMixColumns, mapColumns, Block.xor, invMixColumn_xor]

/-- Settles O32: by columns by definition, the other two column by column. -/
theorem invMixColumnsUndoesMixColumns : Obligations.InvMixColumnsUndoesMixColumns :=
  ⟨fun _ => rfl, invMixColumns_mixColumns, invMixColumns_xor⟩

end Sys2Proof.Machine
end

section
/-! PROOFS. O39: `Inverse` and `Forward` undo each other, by way of the direct inverse, which takes back round by round what
`Forward` did (41_block_transform.md R165 to R168). -/

namespace Sys2Proof.Machine

/-! ## The operations and their inverses -/

@[simp] theorem addRoundKey_addRoundKey (B K : Block) : addRoundKey (addRoundKey B K) K = B := Block.xor_xor_cancel B K

@[simp] theorem invSubBytes_subBytes (B : Block) : invSubBytes (subBytes B) = B := by
  simp only [invSubBytes, subBytes, mapColumns, mapWord, invSbox_sbox]

@[simp] theorem subBytes_invSubBytes (B : Block) : subBytes (invSubBytes B) = B := by
  simp only [invSubBytes, subBytes, mapColumns, mapWord, sbox_invSbox]

/-- A substitution of bytes does not see where they stand. -/
theorem invShiftRows_invSubBytes (B : Block) : invShiftRows (invSubBytes B) = invSubBytes (invShiftRows B) := rfl

/-! ## The direct inverse over the forward schedule (R167) -/

/-- A loop pass takes back the mixing and the key of a round; the next pass begins with its substitution and shift. -/
theorem directRound_forwardRound (K S : Block) :
    directRound K (shiftRows (subBytes (forwardRound K S))) = shiftRows (subBytes S) := by
  simp [directRound, forwardRound]

theorem forwardRound_directRound (K T : Block) :
    forwardRound K (invSubBytes (invShiftRows (directRound K T))) = invSubBytes (invShiftRows T) := by
  simp [directRound, forwardRound]

theorem directRounds_forwardRounds (ek : Schedule) (n : Nat) (S : Block) :
    directRounds ek n (shiftRows (subBytes (forwardRounds ek n S))) = shiftRows (subBytes S) := by
  induction n with
  | zero => rfl
  | succ n ih => rw [directRounds, forwardRounds, directRound_forwardRound, ih]

theorem forwardRounds_directRounds (ek : Schedule) (n : Nat) (T : Block) :
    forwardRounds ek n (invSubBytes (invShiftRows (directRounds ek n T))) = invSubBytes (invShiftRows T) := by
  induction n generalizing T with
  | zero => rfl
  | succ n ih => rw [directRounds, forwardRounds, ih, forwardRound_directRound]

theorem directInverse_forward (nr : Nat) (ek : Schedule) (B : Block) : directInverse nr ek (forward nr ek B) = B := by
  rw [directInverse, forward, addRoundKey_addRoundKey, directRounds_forwardRounds, invShiftRows_shiftRows,
    invSubBytes_subBytes, addRoundKey_addRoundKey]

theorem forward_directInverse (nr : Nat) (ek : Schedule) (B : Block) : forward nr ek (directInverse nr ek B) = B := by
  rw [forward, directInverse, addRoundKey_addRoundKey, forwardRounds_directRounds, subBytes_invSubBytes,
    shiftRows_invShiftRows, addRoundKey_addRoundKey]

/-! ## The inverse schedule (R166, R168) -/

/-- Round keys 0 and `Nr` of the inverse schedule are those of the forward one. -/
theorem invSchedule_roundKey_outer (k : KeyWords) (ek : Schedule) {r : Nat} (h : r = 0 ∨ r = k.rounds) :
    (invSchedule k ek).roundKey r = ek.roundKey r := by
  have hword {i : Nat} (hl : 4 * r ≤ i) (hu : i < 4 * r + 4) : (invSchedule k ek).word i = ek.word i := by
    rw [invSchedule_word k ek (by rw [k.scheduleWords_eq]; omega), invScheduleWord_outer ek (by omega)]
  simp (disch := omega) only [Schedule.roundKey, hword]

/-- The round keys between are mixed. -/
theorem invSchedule_roundKey_middle (k : KeyWords) (ek : Schedule) {r : Nat} (h0 : 0 < r) (hr : r < k.rounds) :
    (invSchedule k ek).roundKey r = invMixColumns (ek.roundKey r) := by
  have hword {i : Nat} (hl : 4 * r ≤ i) (hu : i < 4 * r + 4) :
      (invSchedule k ek).word i = invMixColumn (ek.word i) := by
    rw [invSchedule_word k ek (by rw [k.scheduleWords_eq]; omega), invScheduleWord_middle ek (by omega), invMixWord]
  simp (disch := omega) only [Schedule.roundKey, hword, invMixColumns, mapColumns]

/-- Mixing is linear, so a pass may mix before it adds the key, if the key is mixed too. -/
theorem inverseRound_invMixColumns (K S : Block) : inverseRound (invMixColumns K) S = directRound K S := by
  simp only [inverseRound, directRound, addRoundKey, invMixColumns_xor, invShiftRows_invSubBytes]

theorem inverseRounds_eq_directRounds (k : KeyWords) (ek : Schedule) {n : Nat} (hn : n < k.rounds) (S : Block) :
    inverseRounds (invSchedule k ek) n S = directRounds ek n S := by
  induction n generalizing S with
  | zero => rfl
  | succ n ih =>
    rw [inverseRounds, directRounds, invSchedule_roundKey_middle k ek n.succ_pos hn, inverseRound_invMixColumns,
      ih (Nat.lt_of_succ_lt hn)]

/-- The direct inverse over the forward schedule is `Inverse` over the inverse one (R168). -/
theorem directInverse_eq_inverse (k : KeyWords) (ek : Schedule) (B : Block) :
    directInverse k.rounds ek B = inverse k.rounds (invSchedule k ek) B := by
  have hn : k.rounds - 1 < k.rounds := Nat.sub_one_lt (Nat.succ_ne_zero _)
  rw [directInverse, inverse, inverseRounds_eq_directRounds k ek hn, invSchedule_roundKey_outer k ek (.inl rfl),
    invSchedule_roundKey_outer k ek (.inr rfl), invShiftRows_invSubBytes]

/-- Settles O39: `Inverse` is the direct inverse, which undoes `Forward` and is undone by it. -/
theorem inverseUndoesForward : Obligations.InverseUndoesForward := by
  intro k ek B
  have heq := directInverse_eq_inverse k ek
  exact ⟨heq _ ▸ directInverse_forward k.rounds ek B, heq B ▸ forward_directInverse k.rounds ek B, heq B⟩

end Sys2Proof.Machine
end

section
/-! PROOFS. O34: adding 1 to a byte sequence carries through the `ff` bytes at its end (42_mode_engine.md R198). -/

namespace Sys2Proof.Machine

/-! ## The carry -/

theorem natOfBytes_append_ff (l : List Byte) (m : Nat) :
    natOfBytes (l ++ List.replicate m 0xff) + 1 = (natOfBytes l + 1) * 256 ^ m := by
  induction m with
  | zero => simp
  | succ m ih =>
    have hff : (0xff : Byte).toNat = 255 := rfl
    rw [List.replicate_succ', ← List.append_assoc, natOfBytes_concat, Nat.pow_succ, ← Nat.mul_assoc, ← ih, hff]
    omega

theorem natOfBytes_append_zero (l : List Byte) (m : Nat) :
    natOfBytes (l ++ List.replicate m 0) = natOfBytes l * 256 ^ m := by
  induction m with
  | zero => simp
  | succ m ih =>
    rw [List.replicate_succ', ← List.append_assoc, natOfBytes_concat, Nat.pow_succ, ← Nat.mul_assoc, ← ih]
    simp

theorem toNat_add_one_of_ne_ff {b : Byte} (hb : b ≠ 0xff) : (b + 1).toNat = b.toNat + 1 := by
  have hlt := b.isLt
  have hne : b.toNat ≠ 255 := fun h => hb (BitVec.eq_of_toNat_eq h)
  have hone : (1 : Byte).toNat = 1 := rfl
  rw [BitVec.toNat_add, hone]
  omega

/-- The last byte that is not `ff` grows by one, the `ff` bytes after it become zero. -/
theorem natOfBytes_carry (l : List Byte) {b : Byte} (hb : b ≠ 0xff) (m : Nat) :
    natOfBytes (l ++ [b] ++ List.replicate m 0xff) + 1 = natOfBytes (l ++ [b + 1] ++ List.replicate m 0) := by
  rw [natOfBytes_append_ff, natOfBytes_append_zero, natOfBytes_concat, natOfBytes_concat, toNat_add_one_of_ne_ff hb,
    Nat.add_assoc]

/-! ## `Inc128` byte by byte -/

theorem be128_lt (B : Block) : be128 B < 2 ^ 128 :=
  have ⟨_, hblock, _⟩ := blocksAreBigEndianIntegers
  (hblock B).1

@[simp] theorem blk128_be128 (B : Block) : blk128 (be128 B) = B :=
  have ⟨_, hblock, _⟩ := blocksAreBigEndianIntegers
  (hblock B).2

theorem be128_blk128 {n : Nat} (h : n < 2 ^ 128) : be128 (blk128 n) = n :=
  have ⟨_, _, hnum⟩ := blocksAreBigEndianIntegers
  hnum n h

theorem inc128_eq_of_be128 {B B' : Block} (h : be128 B + 1 = be128 B') : inc128 B = B' := by
  rw [inc128, h, Nat.mod_eq_of_lt (be128_lt B'), blk128_be128]

theorem inc128_bytes {B : Block} {l : List Byte} {b : Byte} {m : Nat} (hB : B.bytes = l ++ [b] ++ List.replicate m 0xff)
    (hb : b ≠ 0xff) : (inc128 B).bytes = l ++ [b + 1] ++ List.replicate m 0 := by
  have hlen : (l ++ [b + 1] ++ List.replicate m 0).length = 16 := by
    rw [← B.bytes_length, hB]
    simp
  have hnum : be128 B + 1 = be128 (Block.ofBytes (l ++ [b + 1] ++ List.replicate m 0)) := by
    rw [be128_eq_natOfBytes, be128_eq_natOfBytes, Block.bytes_ofBytes hlen, hB, natOfBytes_carry l hb]
  rw [inc128_eq_of_be128 hnum, Block.bytes_ofBytes hlen]

theorem inc128_all_ff {B : Block} (hB : B.bytes = List.replicate 16 0xff) : inc128 B = Block.zero := by
  have hnum : be128 B + 1 = 2 ^ 128 := by
    rw [be128_eq_natOfBytes, hB]
    exact natOfBytes_append_ff [] 16
  rw [inc128, hnum, Nat.mod_self]
  rfl

theorem bytes_getElem (B : Block) {j : Nat} (h : j < B.bytes.length) : B.bytes[j] = B.byte j :=
  (List.getD_eq_getElem _ 0 h).symm

/-- The bytes of a block whose bytes after index `k` are all `ff`. -/
theorem bytes_eq_append_ff {B : Block} {k : Nat} (hk : k < 16) (hff : ∀ j, k < j → j < 16 → B.byte j = 0xff) :
    B.bytes = B.bytes.take k ++ [B.byte k] ++ List.replicate (15 - k) 0xff := by
  have htail : B.bytes.drop (k + 1) = List.replicate (15 - k) 0xff := by
    apply List.ext_getElem
    · simp
    · intro i hi _
      rw [List.length_drop, B.bytes_length] at hi
      rw [List.getElem_drop, bytes_getElem, List.getElem_replicate]
      exact hff _ (by omega) (by omega)
  calc B.bytes = B.bytes.take k ++ B.bytes.drop k := (List.take_append_drop k _).symm
    _ = B.bytes.take k ++ [B.byte k] ++ List.replicate (15 - k) 0xff := by
      rw [List.drop_eq_getElem_cons (by simpa using hk), bytes_getElem, htail]
      simp

/-- Settles O34: byte by byte by the carry, all `ff` by the wrap, the examples by evaluation. -/
theorem counterIncrement : Obligations.CounterIncrement := by
  refine ⟨fun _ => rfl, fun B k hk hne hff => ?_, fun B hff => ?_, by decide +kernel⟩
  · have hbytes := inc128_bytes (bytes_eq_append_ff hk hff) hne
    have htake : (B.bytes.take k).length = k := by simp; omega
    refine ⟨?_, fun j hj _ => ?_, fun j hj => ?_⟩
    · simp [Block.byte, hbytes, htake]
    · have hlen : (B.bytes.take k ++ [B.byte k + 1]).length = k + 1 := by simp [htake]
      rw [Block.byte, hbytes, List.getD_append_right _ _ _ _ (by omega), hlen]
      exact List.getD_replicate 0 (i := j - (k + 1)) (n := 15 - k) (by omega)
    · rw [Block.byte, hbytes, List.append_assoc, List.getD_append _ _ _ _ (by omega)]
      simp [Block.byte, hj]
  · refine inc128_all_ff (List.ext_getElem rfl fun i hi _ => ?_)
    rw [bytes_getElem, List.getElem_replicate]
    exact hff i hi

end Sys2Proof.Machine
end

section
/-! PROOFS. O40, O41, O42: the block modes on a whole number of blocks (42_mode_engine.md R184 to R187). -/

namespace Sys2Proof.Machine

/-! ## Answers and payloads -/

/-- A data command of a valid session, aligned in a block mode, answers with what the mode engine gives. -/
theorem answersOk_of_crypt {dir : Dir} {n : Nat} {s : State} {out : List Byte} {r : Regs} (hv : s.regs.valid = true)
    (ha : s.regs.mode.isBlock = true → n % 16 = 0) (hl : s.din.length = n) (hc : crypt dir s.regs s.din = (out, r)) :
    AnswersOk (dir.command n) s out r := by
  rw [AnswersOk, exec_command_ok hl (dataError_none hv ha), hc]
  rfl

theorem bytesBE_sixteen (n : Nat) : bytesBE 16 n = (blk128 n).bytes := by
  rw [blk128_eq_ofBytes, Block.bytes_ofBytes (bytesBE_length 16 n)]

/-- The session of a worked example, as `FirstBlock` sets it up. -/
def exampleSession (m : Mode) (k : KeyWords) (key iv : Nat) : Regs :=
  newSession m k (bytesBE (4 * k.words) key) (blk128 iv)

/-- A worked example holds if the mode engine gives its output and its registers for the one block. -/
theorem firstBlock_of_crypt {dir : Dir} {m : Mode} {k : KeyWords} {key iv input output chain ks : Nat}
    (hc : crypt dir (exampleSession m k key iv) (blk128 input).bytes =
      ((blk128 output).bytes, { exampleSession m k key iv with chain := blk128 chain, ks := blk128 ks })) :
    FirstBlock dir m k key iv input output chain ks := by
  rw [← bytesBE_sixteen, ← bytesBE_sixteen] at hc
  exact answersOk_of_crypt rfl (fun _ => rfl) (bytesBE_length 16 input) hc

theorem payloadBlocks_of_length {din : List Byte} {n : Nat} (h : din.length = 16 * n) :
    payloadBlocks din = blocksOf n din := by
  rw [payloadBlocks, h, Nat.mul_div_cancel_left n (by decide)]

@[simp] theorem payloadBlocks_bytes (B : Block) : payloadBlocks B.bytes = [B] := by
  rw [payloadBlocks_of_length (n := 1) rfl]
  rfl

/-! ## ECB -/

/-- What ECB does to a block in each direction (R184, R185). -/
def Dir.transform : Dir → Regs → Block → Block
  | .enc => Regs.forward
  | .dec => Regs.inverse

theorem crypt_ecb (dir : Dir) {r : Regs} (h : r.mode = .ecb) (din : List Byte) :
    crypt dir r din = (bytesOf ((payloadBlocks din).map (dir.transform r)), r) := by
  cases dir with
  | enc => rw [crypt, encrypt, h]; rfl
  | dec => rw [crypt, decrypt, h]; rfl

/-- A function of blocks on every block of an aligned payload. -/
theorem blockAt_bytesOf_map (f : Block → Block) {din : List Byte} {n i : Nat} (hl : din.length = 16 * n) (hi : i < n) :
    blockAt (bytesOf ((payloadBlocks din).map f)) i = f (blockAt din i) := by
  rw [payloadBlocks_of_length hl, blockAt_bytesOf (by simpa using hi), List.getElem_map, blocksOf_getElem]

/-- ECB in either direction on a whole number of blocks. -/
theorem ecb_answers (dir : Dir) {s : State} {n : Nat} (hv : s.regs.valid = true) (hm : s.regs.mode = .ecb)
    (hl : s.din.length = 16 * n) :
    ∃ out, AnswersOk (dir.command (16 * n)) s out s.regs ∧ out.length = 16 * n ∧
      ∀ i, i < n → blockAt out i = dir.transform s.regs (blockAt s.din i) := by
  refine ⟨_, answersOk_of_crypt hv (fun _ => Nat.mul_mod_right 16 n) hl (crypt_ecb dir hm s.din), ?_,
    fun i hi => blockAt_bytesOf_map _ hl hi⟩
  simp [payloadBlocks_of_length hl]

theorem crypt_ecb_block (dir : Dir) {r : Regs} (h : r.mode = .ecb) (B : Block) :
    crypt dir r B.bytes = ((dir.transform r B).bytes, r) := by
  simp [crypt_ecb dir h]

theorem ecb_example : (exampleSession .ecb .k4 0x000102030405060708090a0b0c0d0e0f 0).forward
    (blk128 0x00112233445566778899aabbccddeeff) = blk128 0x69c4e0d86a7b0430d8cdb78070b4c55a := by decide +kernel

/-- Settles O40: each direction block by block, the example by evaluating `Forward` once. -/
theorem ecbTransformsEachBlock : Obligations.EcbTransformsEachBlock := by
  refine ⟨fun s n hv hm hl => ⟨ecb_answers .enc hv hm hl, ecb_answers .dec hv hm hl⟩, firstBlock_of_crypt ?_⟩
  rw [crypt_ecb_block .enc rfl, Dir.transform, ecb_example]
  rfl

/-! ## CBC -/

/-- The block before block `i` of a payload, a chaining value before the first. -/
def previousBlock (chain : Block) (bs : List Byte) : Nat → Block
  | 0 => chain
  | i + 1 => blockAt bs i

theorem previousBlock_eq_ite (chain : Block) (bs : List Byte) (n : Nat) :
    previousBlock chain bs n = if n = 0 then chain else blockAt bs (n - 1) := by
  cases n <;> rfl

theorem getElem_cons_eq_previousBlock (chain : Block) (Bs : List Block) {i : Nat} (hi : i < (chain :: Bs).length) :
    (chain :: Bs)[i] = previousBlock chain (bytesOf Bs) i := by
  cases i with
  | zero => rfl
  | succ i => exact (blockAt_bytesOf (by simpa using hi)).symm

/-- Each output block is chained to the output block before it (R186). -/
theorem cbcEncBlocks_getElem (r : Regs) (c : Block) (Ps : List Block) {i : Nat} (hi : i < Ps.length) :
    (cbcEncBlocks r c Ps).1[i]'(by simpa using hi) =
      r.forward (Ps[i].xor ((c :: (cbcEncBlocks r c Ps).1)[i]'(by simp; omega))) := by
  induction Ps generalizing c i with
  | nil => simp at hi
  | cons P Ps ih =>
    cases i with
    | zero => rfl
    | succ i => exact ih _ (by simpa using hi)

theorem cbcEncBlocks_chain (r : Regs) (c : Block) (Ps : List Block) :
    (cbcEncBlocks r c Ps).2 = (c :: (cbcEncBlocks r c Ps).1)[Ps.length]'(by simp) := by
  induction Ps generalizing c with
  | nil => rfl
  | cons P Ps ih => exact ih _

/-- Each output block is chained to the input block before it (R187). -/
theorem cbcDecBlocks_getElem (r : Regs) (c : Block) (Cs : List Block) {i : Nat} (hi : i < Cs.length) :
    (cbcDecBlocks r c Cs).1[i]'(by simpa using hi) = (r.inverse Cs[i]).xor ((c :: Cs)[i]'(by simp; omega)) := by
  induction Cs generalizing c i with
  | nil => simp at hi
  | cons C Cs ih =>
    cases i with
    | zero => rfl
    | succ i => exact ih _ (by simpa using hi)

theorem cbcDecBlocks_chain (r : Regs) (c : Block) (Cs : List Block) :
    (cbcDecBlocks r c Cs).2 = (c :: Cs)[Cs.length]'(by simp) := by
  induction Cs generalizing c with
  | nil => rfl
  | cons C Cs ih => exact ih _

theorem crypt_cbc_enc {r : Regs} (h : r.mode = .cbc) (din : List Byte) : crypt .enc r din =
    (bytesOf (cbcEncBlocks r r.chain (payloadBlocks din)).1,
      { r with chain := (cbcEncBlocks r r.chain (payloadBlocks din)).2 }) := by
  simp only [crypt, encrypt, h, cbcEnc]

theorem crypt_cbc_dec {r : Regs} (h : r.mode = .cbc) (din : List Byte) : crypt .dec r din =
    (bytesOf (cbcDecBlocks r r.chain (payloadBlocks din)).1,
      { r with chain := (cbcDecBlocks r r.chain (payloadBlocks din)).2 }) := by
  simp only [crypt, decrypt, h, cbcDec]

/-- CBC encryption of an aligned payload, through the blocks of its bytes. -/
theorem crypt_cbc_enc_blocks {r : Regs} {din : List Byte} {n : Nat} (h : r.mode = .cbc) (hl : din.length = 16 * n) :
    ∃ out, crypt .enc r din = (out, { r with chain := previousBlock r.chain out n }) ∧ out.length = 16 * n ∧
      ∀ i, i < n → blockAt out i = r.forward ((blockAt din i).xor (previousBlock r.chain out i)) := by
  refine ⟨bytesOf (cbcEncBlocks r r.chain (blocksOf n din)).1, ?_, by simp, fun i hi => ?_⟩
  · rw [crypt_cbc_enc h, payloadBlocks_of_length hl, cbcEncBlocks_chain, getElem_cons_eq_previousBlock, blocksOf_length]
  · rw [blockAt_bytesOf (by simpa using hi), cbcEncBlocks_getElem _ _ _ (by simpa using hi),
      getElem_cons_eq_previousBlock, blocksOf_getElem]

/-- CBC decryption of an aligned payload, through the blocks of its bytes. -/
theorem crypt_cbc_dec_blocks {r : Regs} {din : List Byte} {n : Nat} (h : r.mode = .cbc) (hl : din.length = 16 * n) :
    ∃ out, crypt .dec r din = (out, { r with chain := previousBlock r.chain din n }) ∧ out.length = 16 * n ∧
      ∀ i, i < n → blockAt out i = (r.inverse (blockAt din i)).xor (previousBlock r.chain din i) := by
  refine ⟨bytesOf (cbcDecBlocks r r.chain (blocksOf n din)).1, ?_, by simp, fun i hi => ?_⟩
  · rw [crypt_cbc_dec h, payloadBlocks_of_length hl, cbcDecBlocks_chain, getElem_cons_eq_previousBlock, blocksOf_length,
      bytesOf_blocksOf hl]
  · rw [blockAt_bytesOf (by simpa using hi), cbcDecBlocks_getElem _ _ _ (by simpa using hi),
      getElem_cons_eq_previousBlock, blocksOf_getElem, bytesOf_blocksOf hl]

theorem crypt_cbc_enc_block {r : Regs} (h : r.mode = .cbc) (B : Block) : crypt .enc r B.bytes =
    ((r.forward (B.xor r.chain)).bytes, { r with chain := r.forward (B.xor r.chain) }) := by
  simp [crypt_cbc_enc h, cbcEncBlocks]

theorem cbc_example : (exampleSession .cbc .k4 exampleKey128 exampleIV).forward
    ((blk128 0x6bc1bee22e409f96e93d7e117393172a).xor (exampleSession .cbc .k4 exampleKey128 exampleIV).chain) =
      blk128 0x7649abac8119b246cee98e9b12e9197d := by decide +kernel

/-- Settles O41: block by block along the chain, the example by evaluating `Forward` once. -/
theorem cbcEncryptChains : Obligations.CbcEncryptChains := by
  refine ⟨fun s n hv hm hl => ?_, firstBlock_of_crypt ?_⟩
  · obtain ⟨out, hc, hlen, hblock⟩ := crypt_cbc_enc_blocks hm hl
    rw [previousBlock_eq_ite] at hc
    exact ⟨out, answersOk_of_crypt hv (fun _ => Nat.mul_mod_right 16 n) hl hc, hlen, hblock 0,
      fun i hi => hblock (i + 1) hi⟩
  · rw [crypt_cbc_enc_block rfl, cbc_example]
    rfl

/-- Settles O42: block by block along the chain of input blocks. -/
theorem cbcDecryptChains : Obligations.CbcDecryptChains := by
  intro s n hv hm hl
  obtain ⟨out, hc, hlen, hblock⟩ := crypt_cbc_dec_blocks hm hl
  rw [previousBlock_eq_ite] at hc
  exact ⟨out, answersOk_of_crypt hv (fun _ => Nat.mul_mod_right 16 n) hl hc, hlen, hblock 0, fun i hi => hblock (i + 1) hi⟩

end Sys2Proof.Machine
end

section
/-! PROOFS. O43: the byte loop of the stream modes, byte by byte (42_mode_engine.md R190, R192, R195). -/

namespace Sys2Proof.Machine

/-! ## The registers along the loop -/

/-- The registers after the first `j` bytes of a payload. -/
def regsAt (dir : Dir) (r : Regs) (din : List Byte) (j : Nat) : Regs := (stream dir r (din.take j)).2

theorem regsAt_length (dir : Dir) (r : Regs) {din : List Byte} {n : Nat} (h : din.length = n) :
    regsAt dir r din n = (stream dir r din).2 := by
  rw [regsAt, ← h, List.take_length]

theorem regsAt_same (dir : Dir) (r : Regs) (din : List Byte) (j : Nat) : SameSession r (regsAt dir r din j) :=
  stream_same dir r _

theorem stream_take (dir : Dir) (r : Regs) (din : List Byte) (j : Nat) :
    stream dir r (din.take j) = ((stream dir r din).1.take j, regsAt dir r din j) := by
  refine Prod.ext ?_ rfl
  induction din generalizing r j with
  | nil => simp
  | cons b bs ih =>
    cases j with
    | zero => rfl
    | succ j => exact congrArg (List.cons _) (ih _ j)

theorem stream_drop (dir : Dir) (r : Regs) (din : List Byte) (j : Nat) :
    stream dir (regsAt dir r din j) (din.drop j) = ((stream dir r din).1.drop j, (stream dir r din).2) := by
  induction din generalizing r j with
  | nil => simp [regsAt]
  | cons b bs ih =>
    cases j with
    | zero => rfl
    | succ j => exact ih _ j

theorem regsAt_add (dir : Dir) (r : Regs) (din : List Byte) (j m : Nat) :
    regsAt dir r din (j + m) = regsAt dir (regsAt dir r din j) (din.drop j) m := by
  rw [regsAt, List.take_add, stream_append]
  rfl

/-- The loop on a piece inside a payload gives that piece of the output, between the registers before and after it. -/
theorem stream_piece (dir : Dir) (r : Regs) (din : List Byte) (j m : Nat) :
    stream dir (regsAt dir r din j) ((din.drop j).take m) =
      (((stream dir r din).1.drop j).take m, regsAt dir r din (j + m)) := by
  rw [stream_take, stream_drop, regsAt_add]

theorem take_one_drop {l : List Byte} {j : Nat} (h : j < l.length) : (l.drop j).take 1 = [l.getD j 0] := by
  rw [List.take_one_drop_eq_of_lt_length h, List.getD_eq_getElem _ _ h]
  rfl

/-- One pass of the loop inside a payload. -/
theorem streamByte_regsAt (dir : Dir) (r : Regs) {din : List Byte} {j : Nat} (hj : j < din.length) :
    streamByte dir (regsAt dir r din j) (din.getD j 0) =
      ((stream dir r din).1.getD j 0, regsAt dir r din (j + 1)) := by
  have h := stream_piece dir r din j 1
  rw [take_one_drop hj, take_one_drop (by simpa using hj)] at h
  simpa [stream, Prod.ext_iff] using h

/-! ## One pass of the loop -/

theorem nextKeystream_chain_cfb {r : Regs} (h : r.mode = .cfb) : (nextKeystream r).chain = r.chain := by
  simp [nextKeystream, h]

theorem nextKeystream_chain_ofb {r : Regs} (h : r.mode = .ofb) : (nextKeystream r).chain = r.forward r.chain := by
  simp [nextKeystream, h]

theorem nextKeystream_chain_ctr {r : Regs} (h : r.mode = .ctr) : (nextKeystream r).chain = inc128 r.chain := by
  simp [nextKeystream, h]

/-- The registers after the keystream step of the loop, which happens only at `POS = 16` (R190). -/
def keystreamReady (r : Regs) : Regs := if r.pos = 16 then nextKeystream r else r

theorem keystreamReady_at_boundary {r : Regs} (h : r.pos = 16) : keystreamReady r = nextKeystream r := if_pos h

theorem keystreamReady_in_block {r : Regs} (h : r.pos.val < 16) : keystreamReady r = r :=
  if_neg fun hp => by simp [hp] at h

theorem keystreamReady_pos_lt (r : Regs) : (keystreamReady r).pos.val < 16 := by
  unfold keystreamReady
  split
  · simp
  · next h =>
    have hlt := r.pos.isLt
    have hne : r.pos.val ≠ 16 := fun hv => h (Fin.ext hv)
    omega

theorem keystreamReady_same (r : Regs) : SameSession r (keystreamReady r) := by
  unfold keystreamReady
  split
  · exact nextKeystream_same r
  · exact .refl r

theorem nextPos_val {p : Fin 17} (h : p.val < 16) : (nextPos p).val = p.val + 1 := by
  simp only [nextPos]
  omega

/-- What CFB takes into `CHAIN`, of an input and its output (R195). -/
def Dir.ciphertext {α : Type} (dir : Dir) (input output : α) : α :=
  match dir with
  | .enc => output
  | .dec => input

/-- The pass of the loop after its keystream step. -/
theorem streamByte_eq (dir : Dir) (r : Regs) (b : Byte) : streamByte dir r b =
    (b ^^^ (keystreamReady r).ks.byte (keystreamReady r).pos.val,
      { keystreamReady r with
        chain :=
          if (keystreamReady r).mode = .cfb then
            (keystreamReady r).chain.setByte (keystreamReady r).pos.val
              (dir.ciphertext b (b ^^^ (keystreamReady r).ks.byte (keystreamReady r).pos.val))
          else (keystreamReady r).chain
        pos := nextPos (keystreamReady r).pos }) := rfl

/-- A pass of the loop is the byte step of R190. -/
theorem byteStep_streamByte (dir : Dir) (r : Regs) (b : Byte) :
    ByteStep dir r b (streamByte dir r b).1 (streamByte dir r b).2 := by
  have hs := keystreamReady_same r
  rw [streamByte_eq]
  refine ⟨(keystreamReady r).ks, (keystreamReady r).chain, (keystreamReady r).pos.val, fun hp => ?_, fun hp => ?_,
    rfl, rfl, nextPos_val (keystreamReady_pos_lt r), fun hm => if_neg (by rwa [hs.mode]), ?_, ?_,
    hs.valid, hs.mode, hs.nk, hs.ek, hs.dk, hs.iv0⟩
  · rw [keystreamReady_at_boundary (Fin.ext hp)]
    exact ⟨nextKeystream_ks r, by simp, fun h => by rw [nextKeystream_chain_ofb h, nextKeystream_ks],
      nextKeystream_chain_ctr, nextKeystream_chain_cfb⟩
  · rw [keystreamReady_in_block hp]
    exact ⟨rfl, rfl, rfl⟩
  · rintro hm rfl
    exact if_pos (hs.mode.trans hm)
  · rintro hm rfl
    exact if_pos (hs.mode.trans hm)

theorem isBlock_eq_false {m : Mode} (h : m = .cfb ∨ m = .ofb ∨ m = .ctr) : m.isBlock = false := by
  obtain rfl | rfl | rfl := h <;> rfl

/-- A data command of a valid session in a stream mode answers with what the byte loop gives. -/
theorem stream_answers (dir : Dir) {s : State} {n : Nat} (hv : s.regs.valid = true) (hm : s.regs.mode.isBlock = false)
    (hl : s.din.length = n) :
    AnswersOk (dir.command n) s (stream dir s.regs s.din).1 (regsAt dir s.regs s.din n) := by
  rw [regsAt_length dir s.regs hl]
  exact answersOk_of_crypt hv (by simp [hm]) hl (crypt_stream s.din hm)

/-- Settles O43: the registers along the loop are the sequence, each pass is a byte step. -/
theorem streamRunsTheByteLoop : Obligations.StreamRunsTheByteLoop := by
  intro dir s hv hm
  refine ⟨(stream dir s.regs s.din).1, regsAt dir s.regs s.din, rfl, stream_length _ _ _,
    stream_answers dir hv (isBlock_eq_false hm) rfl, fun j hj => ?_⟩
  have hstep := byteStep_streamByte dir (regsAt dir s.regs s.din j) (s.din.getD j 0)
  rwa [streamByte_regsAt dir s.regs hj] at hstep

end Sys2Proof.Machine
end

section
/-! PROOFS. O44, O45, O46: the stream modes on a whole number of blocks from a block boundary (42_mode_engine.md R193, R194,
R196). -/

namespace Sys2Proof.Machine

/-! ## One block from a boundary -/

/-- `CHAIN` with its first `j` bytes written, one after the other, from another block. -/
def fillChain (chain C : Block) : Nat → Block
  | 0 => chain
  | j + 1 => (fillChain chain C j).setByte j (C.byte j)

theorem fillChain_byte (chain C : Block) {j : Nat} (hj : j ≤ 16) (i : Nat) :
    (fillChain chain C j).byte i = if i < j then C.byte i else chain.byte i := by
  induction j with
  | zero => rfl
  | succ j ih =>
    rw [fillChain, Block.byte_setByte _ _ _ _ (by omega), ih (by omega)]
    rcases lt_trichotomy i j with h | rfl | h
    · simp [h, h.ne, Nat.lt_succ_of_lt h]
    · simp
    · simp [h.ne', h.not_gt, show ¬ i < j + 1 by omega]

/-- Once all 16 bytes are written nothing of the old value is left. -/
theorem fillChain_all (chain C : Block) : fillChain chain C 16 = C :=
  Block.ext_byte fun i hi => by rw [fillChain_byte chain C le_rfl, if_pos hi]

theorem take_bytes_succ (B : Block) {j : Nat} (hj : j < 16) : B.bytes.take (j + 1) = B.bytes.take j ++ [B.byte j] := by
  rw [List.take_succ_eq_append_getElem (by simpa using hj), bytes_getElem]

theorem ciphertext_byte (dir : Dir) (B K : Block) {j : Nat} (hj : j < 16) :
    dir.ciphertext (B.byte j) (B.byte j ^^^ K.byte j) = (dir.ciphertext B (B.xor K)).byte j := by
  cases dir with
  | enc => exact (Block.byte_xor B K hj).symm
  | dec => rfl

theorem stream_singleton (dir : Dir) (r : Regs) (b : Byte) :
    stream dir r [b] = ([(streamByte dir r b).1], (streamByte dir r b).2) := rfl

theorem nextPos_mk {j : Nat} (hj : j < 16) : nextPos ⟨j, by omega⟩ = ⟨j + 1, by omega⟩ := Fin.ext (nextPos_val hj)

/-- The registers inside block `B`, `j` bytes done, where `q` are those after the block's keystream step. -/
def regsInBlock (dir : Dir) (q : Regs) (B : Block) (j : Fin 17) : Regs :=
  { q with
    chain := if q.mode = .cfb then fillChain q.chain (dir.ciphertext B (B.xor q.ks)) j else q.chain
    pos := j }

theorem regsInBlock_zero (dir : Dir) {q : Regs} (hq : q.pos = 0) (B : Block) : regsInBlock dir q B 0 = q := by
  have hregs : { q with pos := 0 } = q := by rw [← hq]
  simpa [regsInBlock, fillChain] using hregs

theorem streamByte_regsInBlock (dir : Dir) (q : Regs) (B : Block) {j : Nat} (hj : j < 16) :
    streamByte dir (regsInBlock dir q B ⟨j, by omega⟩) (B.byte j) =
      (B.byte j ^^^ q.ks.byte j, regsInBlock dir q B ⟨j + 1, by omega⟩) := by
  rw [streamByte_eq, keystreamReady_in_block hj]
  by_cases hm : q.mode = .cfb
  · simp [regsInBlock, hm, fillChain, ← ciphertext_byte dir B q.ks hj, nextPos_mk hj]
  · simp [regsInBlock, hm, nextPos_mk hj]

theorem stream_take_bytes (dir : Dir) {q : Regs} (hq : q.pos = 0) (B : Block) {j : Nat} (hj : j < 17) :
    stream dir q (B.bytes.take j) = ((B.xor q.ks).bytes.take j, regsInBlock dir q B ⟨j, hj⟩) := by
  induction j with
  | zero => exact congrArg (Prod.mk []) (regsInBlock_zero dir hq B).symm
  | succ j ih =>
    have hlt : j < 16 := by omega
    rw [take_bytes_succ B hlt, stream_append, ih (by omega), stream_singleton, streamByte_regsInBlock dir q B hlt,
      take_bytes_succ _ hlt, Block.byte_xor B q.ks hlt]

/-- What a block does to `CHAIN`: the ciphertext block (CFB), else what the keystream step makes of it. -/
def chainAfterBlock (dir : Dir) (r : Regs) (B : Block) : Block :=
  if r.mode = .cfb then dir.ciphertext B (B.xor (r.forward r.chain)) else (nextKeystream r).chain

/-- The loop begins a block with a keystream step. -/
theorem stream_bytes_eq_nextKeystream (dir : Dir) {r : Regs} (hp : r.pos = 16) (B : Block) :
    stream dir r B.bytes = stream dir (nextKeystream r) B.bytes := by
  have hb (b : Byte) : streamByte dir r b = streamByte dir (nextKeystream r) b := by
    rw [streamByte_eq, streamByte_eq, keystreamReady_at_boundary hp, keystreamReady_in_block (r := nextKeystream r) (by simp)]
  change stream dir r (B.c0.b0 :: B.bytes.tail) = stream dir (nextKeystream r) (B.c0.b0 :: B.bytes.tail)
  rw [stream, stream, hb]

theorem regsInBlock_last (dir : Dir) {r : Regs} (hp : r.pos = 16) (B : Block) :
    regsInBlock dir (nextKeystream r) B 16 =
      { r with chain := chainAfterBlock dir r B, ks := r.forward r.chain } := by
  have hlast : fillChain (nextKeystream r).chain (dir.ciphertext B (B.xor (r.forward r.chain))) (16 : Fin 17) = _ :=
    fillChain_all _ _
  have hs := nextKeystream_same r
  rw [regsInBlock, nextKeystream_ks, hs.mode, hlast, ← chainAfterBlock, ← hp, hs]

/-- The loop on a block from a boundary: one keystream block, and the position is at a boundary again. -/
theorem stream_block (dir : Dir) {r : Regs} (hp : r.pos = 16) (B : Block) : stream dir r B.bytes =
    ((B.xor (r.forward r.chain)).bytes,
      { r with chain := chainAfterBlock dir r B, ks := r.forward r.chain }) := by
  have h := stream_take_bytes dir (nextKeystream_pos r) B (j := 16) (by omega)
  rw [List.take_of_length_le (by simp), List.take_of_length_le (by simp), nextKeystream_ks] at h
  rw [stream_bytes_eq_nextKeystream dir hp, h, ← regsInBlock_last dir hp]
  rfl

theorem chainAfterBlock_cfb (dir : Dir) {r : Regs} (h : r.mode = .cfb) (B : Block) :
    chainAfterBlock dir r B = dir.ciphertext B (B.xor (r.forward r.chain)) := if_pos h

theorem chainAfterBlock_ofb (dir : Dir) {r : Regs} (h : r.mode = .ofb) (B : Block) :
    chainAfterBlock dir r B = r.forward r.chain := by
  rw [chainAfterBlock, if_neg (by simp [h]), nextKeystream_chain_ofb h]

theorem chainAfterBlock_ctr (dir : Dir) {r : Regs} (h : r.mode = .ctr) (B : Block) :
    chainAfterBlock dir r B = inc128 r.chain := by
  rw [chainAfterBlock, if_neg (by simp [h]), nextKeystream_chain_ctr h]

/-- A worked example of a stream mode holds by its keystream block and the chaining value it leaves. -/
theorem firstBlock_of_keystream {dir : Dir} {m : Mode} {k : KeyWords} {key iv input output chain ks : Nat}
    (hm : m.isBlock = false)
    (hk : (exampleSession m k key iv).forward (exampleSession m k key iv).chain = blk128 ks)
    (ho : (blk128 input).xor (blk128 ks) = blk128 output)
    (hc : chainAfterBlock dir (exampleSession m k key iv) (blk128 input) = blk128 chain) :
    FirstBlock dir m k key iv input output chain ks := by
  refine firstBlock_of_crypt ?_
  rw [crypt_stream _ hm, stream_block dir rfl, hc, hk, ho]

/-! ## Whole blocks from a boundary -/

theorem bytes_blockAt {bs : List Byte} {i : Nat} (h : 16 * (i + 1) ≤ bs.length) :
    (blockAt bs i).bytes = (bs.drop (16 * i)).take 16 :=
  Block.bytes_ofBytes_take (by rw [List.length_drop]; omega)

theorem bytes_injective {A B : Block} (h : A.bytes = B.bytes) : A = B := by
  rw [← A.ofBytes_bytes, h, B.ofBytes_bytes]

section wholeBlocks
variable (dir : Dir) {r : Regs} {din : List Byte} {n : Nat}

/-- The loop on block `i` of a payload, between the registers before and after it. -/
theorem stream_blockAt {i : Nat} (h : 16 * (i + 1) ≤ din.length) :
    stream dir (regsAt dir r din (16 * i)) (blockAt din i).bytes =
      ((blockAt (stream dir r din).1 i).bytes, regsAt dir r din (16 * (i + 1))) := by
  rw [bytes_blockAt h, bytes_blockAt (by rwa [stream_length]), stream_piece]
  rfl

/-- What block `i` does if the loop is at a boundary before it. -/
theorem blockAt_of_boundary {i : Nat} (hpos : (regsAt dir r din (16 * i)).pos = 16) (h : 16 * (i + 1) ≤ din.length) :
    blockAt (stream dir r din).1 i = (blockAt din i).xor (r.forward (regsAt dir r din (16 * i)).chain) ∧
    regsAt dir r din (16 * (i + 1)) =
      { regsAt dir r din (16 * i) with
        chain := chainAfterBlock dir (regsAt dir r din (16 * i)) (blockAt din i)
        ks := r.forward (regsAt dir r din (16 * i)).chain } := by
  have hblock := stream_blockAt dir (r := r) h
  rw [stream_block dir hpos, (regsAt_same dir r din _).forward] at hblock
  obtain ⟨hout, hregs⟩ := Prod.mk.inj hblock
  exact ⟨(bytes_injective hout).symm, hregs.symm⟩

variable (hp : r.pos = 16) (hl : din.length = 16 * n)
include hp hl

theorem regsAt_pos {i : Nat} (hi : i ≤ n) : (regsAt dir r din (16 * i)).pos = 16 := by
  induction i with
  | zero => exact hp
  | succ i ih =>
    obtain ⟨-, hregs⟩ := blockAt_of_boundary dir (ih (by omega)) (by omega)
    rw [hregs]
    exact ih (by omega)

/-- Each block of the output is the input block with the keystream block of the `CHAIN` before it. -/
theorem blockAt_stream {i : Nat} (hi : i < n) : blockAt (stream dir r din).1 i =
    (blockAt din i).xor (r.forward (regsAt dir r din (16 * i)).chain) :=
  (blockAt_of_boundary dir (regsAt_pos dir hp hl hi.le) (by omega)).1

theorem regsAt_succ {i : Nat} (hi : i < n) : regsAt dir r din (16 * (i + 1)) =
    { regsAt dir r din (16 * i) with
      chain := chainAfterBlock dir (regsAt dir r din (16 * i)) (blockAt din i)
      ks := r.forward (regsAt dir r din (16 * i)).chain } :=
  (blockAt_of_boundary dir (regsAt_pos dir hp hl hi.le) (by omega)).2

/-- Only `CHAIN` and `KS` are not as before. -/
theorem regsAt_eq {i : Nat} (hi : i ≤ n) : regsAt dir r din (16 * i) =
    { r with chain := (regsAt dir r din (16 * i)).chain, ks := (regsAt dir r din (16 * i)).ks } := by
  have hs : regsAt dir r din (16 * i) = _ := regsAt_same dir r din (16 * i)
  rwa [regsAt_pos dir hp hl hi, ← hp] at hs

/-- The chaining value of OFB before block `i`. -/
theorem regsAt_chain_ofb (hm : r.mode = .ofb) {i : Nat} (hi : i ≤ n) :
    (regsAt dir r din (16 * i)).chain = r.forward^[i] r.chain := by
  induction i with
  | zero => rfl
  | succ i ih =>
    have hs := regsAt_same dir r din (16 * i)
    rw [regsAt_succ dir hp hl hi, Function.iterate_succ_apply', ← ih (by omega)]
    exact (chainAfterBlock_ofb dir (hs.mode.trans hm) _).trans (by rw [hs.forward])

/-- Behind a block OFB has its keystream block in `KS`. -/
theorem regsAt_ks_ofb (hm : r.mode = .ofb) {i : Nat} (h0 : 0 < i) (hi : i ≤ n) :
    (regsAt dir r din (16 * i)).ks = r.forward^[i] r.chain := by
  obtain ⟨i, rfl⟩ := Nat.exists_eq_add_one_of_ne_zero h0.ne'
  rw [regsAt_succ dir hp hl hi, Function.iterate_succ_apply', ← regsAt_chain_ofb dir hp hl hm (by omega)]

/-- The chaining value of CTR before block `i`: the counter. -/
theorem regsAt_chain_ctr (hm : r.mode = .ctr) {i : Nat} (hi : i ≤ n) :
    (regsAt dir r din (16 * i)).chain = blk128 ((be128 r.chain + i) % 2 ^ 128) := by
  induction i with
  | zero => rw [Nat.add_zero, Nat.mod_eq_of_lt (be128_lt _), blk128_be128]; rfl
  | succ i ih =>
    have hs := regsAt_same dir r din (16 * i)
    rw [regsAt_succ dir hp hl hi]
    calc chainAfterBlock dir (regsAt dir r din (16 * i)) (blockAt din i)
        = inc128 (blk128 ((be128 r.chain + i) % 2 ^ 128)) := by
          rw [chainAfterBlock_ctr dir (hs.mode.trans hm), ih (by omega)]
      _ = blk128 ((be128 r.chain + (i + 1)) % 2 ^ 128) := by
          rw [inc128, be128_blk128 (Nat.mod_lt _ (by decide)), Nat.mod_add_mod, Nat.add_assoc]

/-- The chaining value of CFB before block `i`: the ciphertext block before it. -/
theorem regsAt_chain_cfb (hm : r.mode = .cfb) {i : Nat} (hi : i ≤ n) :
    (regsAt dir r din (16 * i)).chain = previousBlock r.chain (dir.ciphertext din (stream dir r din).1) i := by
  cases i with
  | zero => rfl
  | succ i =>
    have hs := regsAt_same dir r din (16 * i)
    rw [regsAt_succ dir hp hl hi]
    refine (chainAfterBlock_cfb dir (hs.mode.trans hm) _).trans ?_
    rw [hs.forward, ← blockAt_stream dir hp hl hi]
    cases dir <;> rfl

end wholeBlocks

/-- A data command of a stream mode on whole blocks from a boundary changes `CHAIN` and `KS` only. -/
theorem stream_answers_blocks (dir : Dir) {s : State} {n : Nat} (hv : s.regs.valid = true) (hm : s.regs.mode.isBlock = false)
    (hp : s.regs.pos = 16) (hl : s.din.length = 16 * n) :
    AnswersOk (dir.command (16 * n)) s (stream dir s.regs s.din).1
      { s.regs with
        chain := (regsAt dir s.regs s.din (16 * n)).chain
        ks := (regsAt dir s.regs s.din (16 * n)).ks } := by
  rw [← regsAt_eq dir hp hl le_rfl]
  exact stream_answers dir hv hm hl

/-! ## CFB -/

/-- CFB in either direction: block 0 meets `CHAIN`, block `i + 1` the ciphertext block `i`. -/
theorem cfb_answers (dir : Dir) {s : State} {n : Nat} (hv : s.regs.valid = true) (hm : s.regs.mode = .cfb)
    (hp : s.regs.pos = 16) (hn : 0 < n) (hl : s.din.length = 16 * n) :
    ∃ out ks, AnswersOk (dir.command (16 * n)) s out
        { s.regs with chain := blockAt (dir.ciphertext s.din out) (n - 1), ks := ks } ∧
      out.length = 16 * n ∧
      blockAt out 0 = (blockAt s.din 0).xor (s.regs.forward s.regs.chain) ∧
      ∀ i, i + 1 < n → blockAt out (i + 1) =
        (blockAt s.din (i + 1)).xor (s.regs.forward (blockAt (dir.ciphertext s.din out) i)) := by
  have h := stream_answers_blocks dir hv (isBlock_eq_false (.inl hm)) hp hl
  rw [regsAt_chain_cfb dir hp hl hm le_rfl, previousBlock_eq_ite, if_neg hn.ne'] at h
  refine ⟨_, _, h, (stream_length _ _ _).trans hl, blockAt_stream dir hp hl hn, fun i hi => ?_⟩
  rw [blockAt_stream dir hp hl hi, regsAt_chain_cfb dir hp hl hm hi.le, previousBlock]

theorem cfb_example : (exampleSession .cfb .k6 exampleKey192 exampleIV).forward
    (exampleSession .cfb .k6 exampleKey192 exampleIV).chain = blk128 0xa609b38df3b1133dddff2718ba09565e := by decide +kernel

/-- Settles O44: the chaining value before a block is the ciphertext block before it, the example by its keystream block. -/
theorem cfbBlockView : Obligations.CfbBlockView := by
  refine ⟨fun s n hv hm hp hn hl => ⟨cfb_answers .enc hv hm hp hn hl, cfb_answers .dec hv hm hp hn hl⟩,
    firstBlock_of_keystream rfl cfb_example (by decide) ?_⟩
  rw [chainAfterBlock_cfb .enc rfl, cfb_example]
  decide

/-! ## OFB -/

theorem ofb_example : (exampleSession .ofb .k8 exampleKey256 exampleIV).forward
    (exampleSession .ofb .k8 exampleKey256 exampleIV).chain = blk128 0xb7bf3a5df43989dd97f0fa97ebce2f4a := by decide +kernel

/-- Settles O45: `CHAIN` and `KS` are the iterates of `Forward`, the example by its keystream block. -/
theorem ofbBlockView : Obligations.OfbBlockView := by
  refine ⟨fun dir s n hv hm hp hn hl => ?_,
    fun dir => firstBlock_of_keystream rfl ofb_example (by decide) ?_⟩
  · have h := stream_answers_blocks dir hv (isBlock_eq_false (.inr (.inl hm))) hp hl
    rw [regsAt_chain_ofb dir hp hl hm le_rfl, regsAt_ks_ofb dir hp hl hm hn le_rfl] at h
    refine ⟨_, h, (stream_length _ _ _).trans hl, fun i hi => ?_⟩
    rw [blockAt_stream dir hp hl hi, regsAt_chain_ofb dir hp hl hm hi.le, Function.iterate_succ_apply']
  · rw [chainAfterBlock_ofb dir rfl, ofb_example]

/-! ## CTR -/

theorem ctr_example : (exampleSession .ctr .k6 exampleKey192 0xf0f1f2f3f4f5f6f7f8f9fafbfcfdfeff).forward
    (exampleSession .ctr .k6 exampleKey192 0xf0f1f2f3f4f5f6f7f8f9fafbfcfdfeff).chain =
      blk128 0x717d2dc639128334a6167a488ded7921 := by decide +kernel

/-- Settles O46: the chaining value before a block is the counter, the example by its keystream block and `Inc128`. -/
theorem ctrBlockView : Obligations.CtrBlockView := by
  refine ⟨fun dir s n hv hm hp hn hl => ?_,
    fun dir => firstBlock_of_keystream rfl ctr_example (by decide) ?_⟩
  · have h := stream_answers_blocks dir hv (isBlock_eq_false (.inr (.inr hm))) hp hl
    rw [regsAt_chain_ctr dir hp hl hm le_rfl] at h
    refine ⟨_, _, h, (stream_length _ _ _).trans hl, fun i hi => ?_⟩
    rw [blockAt_stream dir hp hl hi, regsAt_chain_ctr dir hp hl hm hi.le]
  · rw [chainAfterBlock_ctr dir rfl]
    obtain ⟨_, _, _, h, -⟩ := counterIncrement
    exact h

end Sys2Proof.Machine
end

section
/-! PROOFS. O14, O16, O17, O18: the session commands `INIT`, `RESET`, `ZEROIZE` and `RDSTAT` (43_session_commands.md R221,
R230, R235, R240; 10_state.md R30). -/

namespace Sys2Proof.Machine

/-! ## The words of the session commands (30_encoding.md R82, R84, R88) -/

theorem decode_of_opcode_init {w : CmdWord} (h : bits w 31 28 = 1) :
    decode w = unlessReserved (bits w 7 0) (.init (bits w 27 24) (bits w 23 16) (bits w 15 8)) := by
  rw [decode, h]
  rfl

theorem decode_of_opcode_reset {w : CmdWord} (h : bits w 31 28 = 4) : decode w = unlessReserved (bits w 27 0) .reset := by
  rw [decode, h]
  rfl

theorem decode_of_opcode_zeroize {w : CmdWord} (h : bits w 31 28 = 5) :
    decode w = unlessReserved (bits w 27 0) .zeroize := by
  rw [decode, h]
  rfl

theorem decode_of_opcode_rdstat {w : CmdWord} (h : bits w 31 28 = 6) : decode w = unlessReserved (bits w 27 0) .rdstat := by
  rw [decode, h]
  rfl

/-! ## Answers -/

/-- `RESET`, `ZEROIZE` and `RDSTAT` declare no payload (30_encoding.md R86). -/
theorem withPayload_of_nil {s : State} {k : List Byte → State} (hd : s.din = []) : withPayload 0 s k = .next (k s.din) :=
  withPayload_of_length (List.length_eq_zero_iff.mpr hd)

theorem answersOk_of_respond {i : Instr} {s : State} {out : List Byte} {regs : Regs}
    (h : exec i s = .next (s.respond regs out none)) : AnswersOk i s out regs := h

/-- A rejection with an error of the command's own leaves the data-in stream empty (60_exceptions.md R256). -/
theorem answersError_of_raise {i : Instr} {s : State} {e : Err} (he : e ≠ .invalidCommand)
    (h : exec i s = .next (s.raise e)) : AnswersError i s e := by
  rw [AnswersError, h, State.raise, if_neg he]

/-! ## Key lengths and mode codes (R221) -/

theorem KeyWords.ofKlen_eq_none {klen : Nat} (h : ¬ (klen = 16 ∨ klen = 24 ∨ klen = 32)) :
    KeyWords.ofKlen klen = none := by
  unfold KeyWords.ofKlen
  split
  · exact absurd (.inl rfl) h
  · exact absurd (.inr (.inl rfl)) h
  · exact absurd (.inr (.inr rfl)) h
  · rfl

/-- A legal key length in bytes is four times the value of `NK`. -/
theorem KeyWords.ofKlen_eq_some {klen : Nat} (h : klen = 16 ∨ klen = 24 ∨ klen = 32) :
    ∃ k, KeyWords.ofKlen klen = some k ∧ k.words = klen / 4 := by
  obtain rfl | rfl | rfl := h
  · exact ⟨.k4, rfl, rfl⟩
  · exact ⟨.k6, rfl, rfl⟩
  · exact ⟨.k8, rfl, rfl⟩

theorem KeyWords.words_le (k : KeyWords) : k.words ≤ 8 := by cases k <;> decide

theorem Mode.code_le (m : Mode) : m.code ≤ 4 := by cases m <;> decide

theorem Mode.ofCode_code (m : Mode) : Mode.ofCode m.code = some m := by cases m <;> rfl

theorem Mode.code_eq_zero_iff (m : Mode) : m.code = 0 ↔ m = .ecb := by cases m <;> decide

theorem Mode.ofCode_eq_none {code : Nat} (h : 4 < code) : Mode.ofCode code = none := by
  obtain ⟨n, rfl⟩ := Nat.exists_eq_add_of_le' h
  rfl

/-- The codes 0 to 4 each are the code of a mode. -/
theorem Mode.exists_code_eq {code : Nat} (h : code ≤ 4) : ∃ m : Mode, m.code = code := by
  match code, h with
  | 0, _ => exact ⟨.ecb, rfl⟩
  | 1, _ => exact ⟨.cbc, rfl⟩
  | 2, _ => exact ⟨.cfb, rfl⟩
  | 3, _ => exact ⟨.ofb, rfl⟩
  | 4, _ => exact ⟨.ctr, rfl⟩

/-! ## `STATUS` as a number (10_state.md R30) -/

/-- The or of two numbers whose bits do not meet is their sum. -/
theorem or_mul_twoPow_eq_add {a b i : Nat} (h : a < 2 ^ i) : a ||| b * 2 ^ i = a + b * 2 ^ i := by
  rw [← Nat.shiftLeft_eq, Nat.or_comm, ← Nat.shiftLeft_add_eq_or_of_lt h, Nat.add_comm]

/-- The four fields of `STATUS` do not overlap. -/
theorem status_toNat (r : Regs) :
    r.status.toNat = r.valid.toNat + r.mode.code * 2 ^ 1 + r.nk.words * 2 ^ 4 + r.pos.val * 2 ^ 8 := by
  have hvalid := r.valid.toNat_lt
  have hmode := r.mode.code_le
  have hnk := r.nk.words_le
  have hpos := r.pos.isLt
  simp (disch := omega) only [Regs.status, BitVec.toNat_or, BitVec.toNat_shiftLeft, BitVec.toNat_ofNat, Nat.shiftLeft_eq,
    Nat.mod_eq_of_lt, or_mul_twoPow_eq_add]

theorem status_fields (r : Regs) :
    bits r.status 0 0 = r.valid.toNat ∧ bits r.status 3 1 = r.mode.code ∧ bits r.status 7 4 = r.nk.words ∧
    bits r.status 12 8 = r.pos.val ∧ bits r.status 31 13 = 0 := by
  have hvalid := r.valid.toNat_lt
  have hmode := r.mode.code_le
  have hnk := r.nk.words_le
  have hpos := r.pos.isLt
  simp only [bits, status_toNat]
  omega

/-- The value of `STATUS` from its four fields. -/
theorem status_eq {r : Regs} {v : Bool} {m : Mode} {k : KeyWords} {p n : Nat} (hv : r.valid = v) (hm : r.mode = m)
    (hk : r.nk = k) (hp : r.pos.val = p) (hn : v.toNat + m.code * 2 ^ 1 + k.words * 2 ^ 4 + p * 2 ^ 8 = n) :
    r.status = BitVec.ofNat 32 n := by
  rw [← hn, ← hv, ← hm, ← hk, ← hp, ← status_toNat, BitVec.ofNat_toNat, BitVec.setWidth_eq]

theorem newSession_status (m : Mode) (k : KeyWords) (key : List Byte) (iv : Block) :
    (newSession m k key iv).status = BitVec.ofNat 32 (1 + m.code * 2 ^ 1 + k.words * 2 ^ 4 + 16 * 2 ^ 8) :=
  status_eq rfl rfl rfl rfl rfl

/-! ## The checks of `INIT` (R221) -/

section checks
variable {code klen ivlen : Nat}

theorem checkInit_invalidKeyLength (hk : ¬ (klen = 16 ∨ klen = 24 ∨ klen = 32)) :
    checkInit code klen ivlen = .error .invalidKeyLength := by
  rw [checkInit, KeyWords.ofKlen_eq_none hk]

theorem checkInit_invalidMode (hk : klen = 16 ∨ klen = 24 ∨ klen = 32) (hc : 4 < code) :
    checkInit code klen ivlen = .error .invalidMode := by
  obtain ⟨k, hk, -⟩ := KeyWords.ofKlen_eq_some hk
  rw [checkInit, hk, Mode.ofCode_eq_none hc]

/-- With a legal key length and mode the IV alone decides. -/
theorem checkInit_of_mode {k : KeyWords} (hk : KeyWords.ofKlen klen = some k) (m : Mode) :
    checkInit m.code klen ivlen = if m ≠ .ecb ∧ ivlen ≠ 16 then .error .missingOrInvalidIV else .ok (m, k) := by
  rw [checkInit, hk, Mode.ofCode_code]

theorem checkInit_missingOrInvalidIV (hk : klen = 16 ∨ klen = 24 ∨ klen = 32) (hc : code ≤ 4) (h0 : code ≠ 0)
    (hiv : ivlen ≠ 16) : checkInit code klen ivlen = .error .missingOrInvalidIV := by
  obtain ⟨k, hk, -⟩ := KeyWords.ofKlen_eq_some hk
  obtain ⟨m, rfl⟩ := Mode.exists_code_eq hc
  rw [checkInit_of_mode hk, if_pos ⟨mt m.code_eq_zero_iff.mpr h0, hiv⟩]

theorem checkInit_ok (hk : klen = 16 ∨ klen = 24 ∨ klen = 32) (hc : code ≤ 4) (hiv : code = 0 ∨ ivlen = 16) :
    ∃ m k, checkInit code klen ivlen = .ok (m, k) ∧ m.code = code ∧ k.words = klen / 4 := by
  obtain ⟨k, hk, hwords⟩ := KeyWords.ofKlen_eq_some hk
  obtain ⟨m, rfl⟩ := Mode.exists_code_eq hc
  refine ⟨m, k, ?_, rfl, hwords⟩
  rw [checkInit_of_mode hk, if_neg]
  rintro ⟨hm, hlen⟩
  exact hiv.elim (fun h0 => hm (m.code_eq_zero_iff.mp h0)) hlen

end checks

/-! ## `INIT` (R221) -/

section init
variable {code klen ivlen : Nat} {s : State}

theorem answersError_init {e : Err} (hl : s.din.length = klen + ivlen) (hc : checkInit code klen ivlen = .error e) :
    AnswersError (.init code klen ivlen) s e :=
  answersError_of_raise (checkInit_ne_invalidCommand hc) (execInit_error hl hc)

theorem answersOk_init {m : Mode} {k : KeyWords} (hl : s.din.length = klen + ivlen)
    (hc : checkInit code klen ivlen = .ok (m, k)) :
    AnswersOk (.init code klen ivlen) s [] (newSession m k (s.din.take klen) (Block.ofBytes (s.din.drop klen))) :=
  answersOk_of_respond (execInit_ok hl hc)

/-- What an `INIT` that completes can do: be rejected by a check, or build a new session. -/
theorem exec_init_cases {t : State} (h : exec (.init code klen ivlen) s = .next t) :
    (∃ e, checkInit code klen ivlen = .error e ∧ t = s.raise e) ∨
    (∃ m k, checkInit code klen ivlen = .ok (m, k) ∧ s.din.length = klen + ivlen ∧
      t = s.respond (newSession m k (keyOperand klen s.din) (ivOperand klen s.din)) [] none) := by
  obtain ⟨hl, -⟩ := exec_completes h
  cases hc : checkInit code klen ivlen with
  | error e =>
    cases (execInit_error hl hc).symm.trans h
    exact .inl ⟨e, rfl, rfl⟩
  | ok mk =>
    obtain ⟨m, k⟩ := mk
    cases (execInit_ok hl hc).symm.trans h
    exact .inr ⟨m, k, rfl, hl, rfl⟩

end init

theorem init_example : AnswersOk (.init 1 16 16) (State.offered (bytesBE 16 exampleKey128 ++ bytesBE 16 exampleIV)) []
    (exampleSession .cbc .k4 exampleKey128 exampleIV) := answersOk_init rfl rfl

/-- Settles O14: each rejection by the check that gives it, the session by the fields of `newSession`, the example's schedule
from the worked example of `KeyExpansion`. -/
theorem initBuildsTheSession : Obligations.InitBuildsTheSession := by
  refine ⟨fun w hw => decode_of_opcode_init hw, fun code klen ivlen s hl => ⟨fun hk => ?_, fun hk hc => ?_,
    fun hk hc h0 hiv => ?_, fun hk hc hiv => ?_⟩, by decide, _, init_example, ?_⟩
  · exact answersError_init hl (checkInit_invalidKeyLength hk)
  · exact answersError_init hl (checkInit_invalidMode hk hc)
  · exact answersError_init hl (checkInit_missingOrInvalidIV hk hc h0 hiv)
  · obtain ⟨m, k, hcheck, rfl, hwords⟩ := checkInit_ok hk hc hiv
    refine ⟨_, answersOk_init hl hcheck, rfl, rfl, hwords, rfl, rfl, fun h0 => ?_, fun h0 => ?_, rfl, rfl, rfl⟩
    · exact if_neg (mt m.code_eq_zero_iff.mpr h0)
    · exact if_pos (m.code_eq_zero_iff.mp h0)
  · obtain ⟨-, hword4, -, hword43⟩ := keyExpansionRecurrence
    exact ⟨hword4, hword43, fun i hlo hhi => expandKey_word_above .k4 _ hlo (Nat.lt_succ_of_le hhi), rfl, rfl,
      newSession_status _ _ _ _⟩

/-! ## `RESET` (R230) -/

theorem rewind_fresh (r : Regs) : (rewind r).Fresh := ⟨rfl, rfl, rfl⟩

theorem newSession_fresh (m : Mode) (k : KeyWords) (key : List Byte) (iv : Block) : (newSession m k key iv).Fresh :=
  ⟨rfl, rfl, rfl⟩

/-- Registers that are as `INIT` and `RESET` leave them are not changed by rewinding. -/
theorem Regs.Fresh.rewind_eq {r : Regs} (h : r.Fresh) : rewind r = r := by
  obtain ⟨⟩ := r
  simp only [Regs.Fresh] at h
  obtain ⟨rfl, rfl, rfl⟩ := h
  rfl

section reset
variable {s : State} (hd : s.din = [])
include hd

theorem execReset_empty (hv : s.regs.valid = false) : execReset s = .next (s.raise .noSession) := by
  rw [execReset, withPayload_of_nil hd, if_pos hv]

theorem execReset_active (hv : s.regs.valid = true) : execReset s = .next (s.respond (rewind s.regs) [] none) := by
  rw [execReset, withPayload_of_nil hd, if_neg (by simp [hv])]

/-- `RESET` changes no register of an Empty engine or of a session not used since `INIT` or `RESET`. -/
theorem execReset_keeps_regs (hf : s.regs.valid = true → s.regs.Fresh) :
    ∃ u, execReset s = .next u ∧ u.regs = s.regs := by
  cases hv : s.regs.valid with
  | false => exact ⟨_, execReset_empty hd hv, rfl⟩
  | true => exact ⟨_, execReset_active hd hv, (hf hv).rewind_eq⟩

/-- What `RESET` leaves: an Empty engine, or a session at its start. -/
theorem execReset_fresh {t : State} (h : execReset s = .next t) : t.din = [] ∧ (t.regs.valid = true → t.regs.Fresh) := by
  cases hv : s.regs.valid with
  | false =>
    cases (execReset_empty hd hv).symm.trans h
    exact ⟨rfl, fun hvt => absurd (hv.symm.trans hvt) (by decide)⟩
  | true =>
    cases (execReset_active hd hv).symm.trans h
    exact ⟨rfl, fun _ => rewind_fresh s.regs⟩

end reset

/-- An `INIT` answered with code 0 leaves a session at its start. -/
theorem exec_init_fresh {code klen ivlen : Nat} {s t : State} (h : exec (.init code klen ivlen) s = .next t)
    (hr : t.responses = s.responses ++ [⟨okWord, [], none⟩]) : t.din = [] ∧ t.regs.Fresh := by
  obtain ⟨e, -, rfl⟩ | ⟨m, k, -, -, rfl⟩ := exec_init_cases h
  · have hword : e.word = okWord := congrArg Response.status (response_eq rfl hr)
    exact absurd hword (word_ne_ok e)
  · exact ⟨rfl, newSession_fresh _ _ _ _⟩

/-- Settles O16: `RESET` leaves a session at its start, as `INIT` does, and changes no register of one. -/
theorem resetRewindsTheSession : Obligations.ResetRewindsTheSession := by
  refine ⟨fun w hw => decode_of_opcode_reset hw, fun s hd => ⟨fun hv => ?_, fun hv => ?_, fun t h => ?_⟩,
    fun s t code klen ivlen h hr => ?_⟩
  · exact answersOk_of_respond (execReset_active hd hv)
  · exact answersError_of_raise (by decide) (execReset_empty hd hv)
  · obtain ⟨hdt, hfresh⟩ := execReset_fresh hd h
    exact execReset_keeps_regs hdt hfresh
  · obtain ⟨hdt, hfresh⟩ := exec_init_fresh h hr
    exact execReset_keeps_regs hdt fun _ => hfresh

/-! ## `ZEROIZE` (R235) -/

theorem execZeroize_eq {s : State} (hd : s.din = []) : execZeroize s = .next (s.respond Regs.powerOn [] none) := by
  rw [execZeroize, withPayload_of_nil hd, cleared_eq_powerOn]

/-- Settles O17: `ZEROIZE` answers with the power-on registers, whose key RAMs hold zero words. -/
theorem zeroizeClearsEverything : Obligations.ZeroizeClearsEverything := by
  refine ⟨fun w hw => decode_of_opcode_zeroize hw, fun s hd => ⟨Regs.powerOn, ?_, rfl, rfl, rfl, rfl, fun i _ => ?_,
    rfl, rfl, rfl, rfl⟩⟩
  · exact answersOk_of_respond (execZeroize_eq hd)
  · exact ⟨word_zero i, word_zero i⟩

/-! ## `RDSTAT` (R240) -/

theorem execRdstat_eq {s : State} (hd : s.din = []) :
    execRdstat s = .next (s.respond s.regs [] (some s.regs.status)) := by
  rw [execRdstat, withPayload_of_nil hd]

/-- Inside a block the byte loop counts `POS` up. -/
theorem stream_pos_in_block (dir : Dir) {r : Regs} {bs : List Byte} (h : r.pos.val + bs.length ≤ 16) :
    (stream dir r bs).2.pos.val = r.pos.val + bs.length := by
  induction bs generalizing r with
  | nil => rfl
  | cons b bs ih =>
    rw [List.length_cons] at h ⊢
    have hb := streamByte_pos dir r b
    rw [if_neg (by omega)] at hb
    rw [stream, ih (by omega), hb]
    omega

/-- From a block boundary the first byte starts a block. -/
theorem stream_pos_from_boundary (dir : Dir) {r : Regs} (hp : r.pos = 16) {bs : List Byte} (h0 : 0 < bs.length)
    (h : bs.length ≤ 16) : (stream dir r bs).2.pos.val = bs.length := by
  obtain ⟨b, bs, rfl⟩ := List.exists_cons_of_length_pos h0
  rw [List.length_cons] at h ⊢
  have hb : (streamByte dir r b).2.pos.val = 1 := by rw [streamByte_pos, hp]; rfl
  rw [stream, stream_pos_in_block dir (by omega), hb, Nat.add_comm]

theorem status_after_five_ctr_bytes (key : List Byte) (iv : Block) {five : List Byte} (h : five.length = 5) :
    (encrypt (newSession .ctr .k6 key iv) five).2.status = 0x00000569 := by
  have hs := stream_same .enc (newSession .ctr .k6 key iv) five
  have hp := stream_pos_from_boundary .enc (newSession_pos .ctr .k6 key iv) (bs := five) (by omega) (by omega)
  exact status_eq hs.valid hs.mode hs.nk (hp.trans h) rfl

/-- Settles O18: the fields of the word are those of `STATUS`, the examples by its value as a number. -/
theorem rdstatReportsStatus : Obligations.RdstatReportsStatus := by
  refine ⟨fun w hw => decode_of_opcode_rdstat hw, fun s hd => ⟨s.regs.status, execRdstat_eq hd, status_fields s.regs⟩,
    ?_, fun key five iv hfive => ⟨?_, ?_, ?_⟩⟩
  · exact status_eq rfl rfl rfl rfl rfl
  · exact newSession_status .ecb .k4 key iv
  · exact newSession_status .ofb .k8 key iv
  · exact status_after_five_ctr_bytes key iv hfive

end Sys2Proof.Machine
end

section
/-! PROOFS. O10, O11, O12: a rejection writes no register, and the order of the checks of each command (60_exceptions.md
R255, R265, R267, R268). -/

namespace Sys2Proof.Machine

/-! ## A rejection writes no register (R255) -/

/-- Of what a completed command can do, only the rejection has a code other than 0, and it writes no register. -/
theorem Completes.regs_of_ne_ok {s t : State} {r : Response} (h : Completes s t) (hr : t.responses = s.responses ++ [r])
    (hne : r.status ≠ okWord) : t.regs = s.regs := by
  cases h with
  | rejected e _ => exact raise_regs s e
  | ok regs dout extra => exact absurd (congrArg Response.status (response_eq hr rfl)) hne

theorem step_regs_of_ne_ok {s t : State} {r : Response} (h : step s = .next t) (hr : t.responses = s.responses ++ [r])
    (hne : r.status ≠ okWord) : t.regs = s.regs := by
  obtain ⟨-, rfl⟩ | ⟨_, rest, _, -, -, -, -, rfl⟩ | ⟨q, rest, i, -, -, -, hx⟩ := step_cases h
  · rfl
  · exact raise_regs _ _
  · exact (exec_completes hx).2.regs_of_ne_ok hr hne

/-- Settles O10: what is rejected writes no register, and its response, being legal, is the code of an error alone. -/
theorem rejectedCommandsWriteNoRegister : Obligations.RejectedCommandsWriteNoRegister := by
  intro s t r h hr hne
  refine ⟨step_regs_of_ne_ok h hr hne, ?_⟩
  obtain ⟨e, rfl⟩ := (step_response_legal h hr).of_ne_ok hne
  exact ⟨rfl, rfl, e, rfl⟩

/-! ## The status word of an answer -/

/-- The outcome is a next state that adds one response, with this status word, to those given before. -/
def AnswersStatus (o : Host.Outcome State Fault Refusal) (before : List Response) (status : CmdWord) : Prop :=
  ∃ (t : State) (r : Response), o = .next t ∧ t.responses = before ++ [r] ∧ r.status = status

theorem answersStatus_of_raise {o : Host.Outcome State Fault Refusal} {s : State} {e : Err} (h : o = .next (s.raise e)) :
    AnswersStatus o s.responses e.word := ⟨_, _, h, raise_responses s e, rfl⟩

theorem answersStatus_of_respond {o : Host.Outcome State Fault Refusal} {s : State} {regs : Regs} {dout : List Byte}
    {extra : Option CmdWord} (h : o = .next (s.respond regs dout extra)) : AnswersStatus o s.responses okWord :=
  ⟨_, _, h, respond_responses s regs dout extra, rfl⟩

/-! ## The first check: reserved bits (R265, R267, R268) -/

section firstCheck
variable {s : State} {w : CmdWord} {payload : List Byte} {rest : List Request}
  (hr : s.requests = ⟨w, payload⟩ :: rest) (hdin : s.din = [])
include hr hdin

/-- A word at the head of the port that decodes is run on its payload (20_memory.md R63). -/
theorem step_command {i : Instr} (hd : decode w = .ok i) :
    step s = exec i { s with requests := rest, din := payload } := by
  have hfetch : fetch s = .command i { s with requests := rest, din := payload } := by
    simp [fetch, hr, hdin, hd]
  rw [step, hfetch]

theorem answersStatus_step_illegal {e : Illegal} (hd : decode w = .error e) (hl : payload.length = paylen w) :
    AnswersStatus (step s) s.responses 6 := by
  rw [paylen_of_decode_error hd] at hl
  obtain rfl := List.length_eq_zero_iff.mp hl
  have hstep := step_illegal hr hdin hd
  exact answersStatus_of_raise hstep

/-- A word with a known opcode is answered code 6 for a reserved bit, and otherwise as its command answers on the declared
payload. -/
theorem answersStatus_step {reserved : Nat} {i : Instr} {status : CmdWord} (hd : decode w = unlessReserved reserved i)
    (hl : payload.length = paylen w)
    (hx : ∀ q : State, q.regs = s.regs → q.din.length = i.paylen → AnswersStatus (exec i q) q.responses status) :
    AnswersStatus (step s) s.responses (if reserved ≠ 0 then 6 else status) := by
  by_cases hz : reserved = 0
  · rw [unlessReserved, if_pos hz] at hd
    rw [if_neg (not_not.mpr hz), step_command hr hdin hd]
    exact hx _ rfl (hl.trans (paylen_of_decode_ok hd))
  · rw [unlessReserved, if_neg hz] at hd
    rw [if_pos hz]
    exact answersStatus_step_illegal hr hdin hd hl

end firstCheck

/-! ## The checks of `INIT` (R267) -/

theorem answersStatus_init {code klen ivlen : Nat} {s : State} (hl : s.din.length = klen + ivlen) :
    AnswersStatus (exec (.init code klen ivlen) s) s.responses
      (if klen ≠ 16 ∧ klen ≠ 24 ∧ klen ≠ 32 then 1
      else if 4 < code then 2
      else if code ≠ 0 ∧ ivlen ≠ 16 then 3
      else 0) := by
  split_ifs with hklen hcode hiv
  · exact answersStatus_of_raise (e := .invalidKeyLength) (execInit_error hl (checkInit_invalidKeyLength (by omega)))
  · exact answersStatus_of_raise (e := .invalidMode) (execInit_error hl (checkInit_invalidMode (by omega) hcode))
  · exact answersStatus_of_raise (e := .missingOrInvalidIV)
      (execInit_error hl (checkInit_missingOrInvalidIV (by omega) (by omega) hiv.1 hiv.2))
  · obtain ⟨m, k, hcheck, -, -⟩ := checkInit_ok (code := code) (klen := klen) (ivlen := ivlen)
      (by omega) (by omega) (by omega)
    exact answersStatus_of_respond (execInit_ok hl hcheck)

/-- Settles O11: the reserved bits are the decoder's check, the three others those of the command in their order. -/
theorem initErrorPriority : Obligations.InitErrorPriority := by
  intro s w payload rest hr hdin hop hl
  exact answersStatus_step hr hdin (decode_of_opcode_init hop) hl fun _ _ hq => answersStatus_init hq

/-! ## The checks of the other commands (R268) -/

/-- The words of `ENC` and `DEC` (30_encoding.md R83, R88). -/
theorem decode_of_opcode_command {w : CmdWord} (h : bits w 31 28 = 2 ∨ bits w 31 28 = 3) :
    ∃ dir : Dir, decode w = unlessReserved (bits w 27 24) (dir.command (bits w 23 0)) := by
  rcases h with h | h
  · exact ⟨.enc, by rw [decode, h]; rfl⟩
  · exact ⟨.dec, by rw [decode, h]; rfl⟩

theorem Mode.isBlock_iff (m : Mode) : m.isBlock = true ↔ m = .ecb ∨ m = .cbc := by cases m <;> decide

theorem dataError_noSession {r : Regs} {n : Nat} (hv : r.valid = false) : dataError r n = some .noSession := if_pos hv

theorem dataError_unalignedBuffer {r : Regs} {n : Nat} (hv : r.valid ≠ false) (hm : r.mode.isBlock = true)
    (ha : n % 16 ≠ 0) : dataError r n = some .unalignedBuffer := by
  rw [dataError, if_neg hv, if_pos ⟨hm, ha⟩]

theorem answersStatus_command {dir : Dir} {n : Nat} {s : State} (hl : s.din.length = n) :
    AnswersStatus (exec (dir.command n) s) s.responses
      (if s.regs.valid = false then 5
      else if (s.regs.mode = .ecb ∨ s.regs.mode = .cbc) ∧ n % 16 ≠ 0 then 4
      else 0) := by
  split_ifs with hv ha
  · exact answersStatus_of_raise (e := .noSession) (exec_command_error hl (dataError_noSession hv))
  · obtain ⟨hm, hn⟩ := ha
    exact answersStatus_of_raise (e := .unalignedBuffer)
      (exec_command_error hl (dataError_unalignedBuffer hv ((Mode.isBlock_iff _).mpr hm) hn))
  · have haligned : s.regs.mode.isBlock = true → n % 16 = 0 := fun hm =>
      not_not.mp fun hn => ha ⟨(Mode.isBlock_iff _).mp hm, hn⟩
    exact answersStatus_of_respond (exec_command_ok hl (dataError_none (Bool.eq_true_of_not_eq_false hv) haligned))

theorem answersStatus_reset {s : State} (hd : s.din = []) :
    AnswersStatus (exec .reset s) s.responses (if s.regs.valid = false then 5 else 0) := by
  split_ifs with hv
  · exact answersStatus_of_raise (e := .noSession) (execReset_empty hd hv)
  · exact answersStatus_of_respond (execReset_active hd (Bool.eq_true_of_not_eq_false hv))

/-- Settles O12: the reserved bits are the decoder's check, the others those of each command in their order. -/
theorem otherCommandsErrorPriority : Obligations.OtherCommandsErrorPriority := by
  refine fun s w payload rest hr hdin hl => ⟨fun hop => ?_, fun hop => ?_, fun hop => ?_⟩
  · obtain ⟨dir, hd⟩ := decode_of_opcode_command hop
    refine answersStatus_step hr hdin hd hl fun q hregs hq => ?_
    rw [← hregs]
    exact answersStatus_command (hq.trans (paylen_command dir _))
  · refine answersStatus_step hr hdin (decode_of_opcode_reset hop) hl fun q hregs hq => ?_
    rw [← hregs]
    exact answersStatus_reset (List.length_eq_zero_iff.mp hq)
  · rcases hop with hop | hop
    · exact answersStatus_step hr hdin (decode_of_opcode_zeroize hop) hl fun _ _ hq =>
        answersStatus_of_respond (execZeroize_eq (List.length_eq_zero_iff.mp hq))
    · exact answersStatus_step hr hdin (decode_of_opcode_rdstat hop) hl fun _ _ hq =>
        answersStatus_of_respond (execRdstat_eq (List.length_eq_zero_iff.mp hq))

end Sys2Proof.Machine
end

section
/-! PROOFS. O20: the machine right after power-on reset (70_reset_and_hazards.md R290). -/

namespace Sys2Proof.Machine

/-- The one set field of `STATUS` after power-on reset is `POS` = 16 (10_state.md R30). -/
theorem powerOn_status : Regs.powerOn.status = 0x00001000 := status_eq rfl rfl rfl rfl rfl

/-- Settles O20: the key RAMs hold zero words, `STATUS` is read by its fields, the rest is as `State.reset` gives it. -/
theorem powerOnValues : Obligations.PowerOnValues := by
  refine ⟨rfl, rfl, rfl, fun i _ => ?_, rfl, rfl, rfl, rfl, ?_, rfl, rfl, rfl⟩
  · exact ⟨word_zero i, word_zero i⟩
  · exact powerOn_status

end Sys2Proof.Machine
end

section
/-! PROOFS. O1, O2, O3, O4: the decoder and the encoder undo each other, and the rows of the opcode table decide
(30_encoding.md R82 to R84, R90, R94). -/

namespace Sys2Proof

open Machine

/-! ## Decoding an encoded command (R82 to R84) -/

theorem unlessReserved_eq_ok {reserved : Nat} {i : Instr} (h : reserved = 0) : unlessReserved reserved i = .ok i :=
  if_pos h

theorem decode_of_opcode_enc {w : CmdWord} (h : bits w 31 28 = 2) :
    decode w = unlessReserved (bits w 27 24) (.enc (bits w 23 0)) := by
  rw [decode, h]
  rfl

theorem decode_of_opcode_dec {w : CmdWord} (h : bits w 31 28 = 3) :
    decode w = unlessReserved (bits w 27 24) (.dec (bits w 23 0)) := by
  rw [decode, h]
  rfl

/-- The fields of the word of an `INIT` (R82). -/
theorem bits_encode_init {mode klen ivlen : Nat} (h : (Instr.init mode klen ivlen).wf = true) :
    bits (encode (.init mode klen ivlen)) 31 28 = 1 ∧ bits (encode (.init mode klen ivlen)) 27 24 = mode ∧
    bits (encode (.init mode klen ivlen)) 23 16 = klen ∧ bits (encode (.init mode klen ivlen)) 15 8 = ivlen ∧
    bits (encode (.init mode klen ivlen)) 7 0 = 0 := by
  simp only [Instr.wf, Bool.and_eq_true, decide_eq_true_eq] at h
  simp only [bits, encode, BitVec.toNat_ofNat]
  omega

/-- The fields of a word of format L (R83). -/
theorem bits_formatL {opc len : Nat} (ho : opc < 16) (hl : len < Config.lenLimit) :
    bits (BitVec.ofNat 32 (opc * 2 ^ 28 + len)) 31 28 = opc ∧
    bits (BitVec.ofNat 32 (opc * 2 ^ 28 + len)) 27 24 = 0 ∧
    bits (BitVec.ofNat 32 (opc * 2 ^ 28 + len)) 23 0 = len := by
  simp only [Config.lenLimit] at hl
  simp only [bits, BitVec.toNat_ofNat]
  omega

/-- Decoding is a left inverse of encoding on the commands whose fields fit their bits. -/
theorem decode_encode {i : Instr} (h : i.wf = true) : decode (encode i) = .ok i := by
  cases i with
  | init mode klen ivlen =>
    obtain ⟨hop, hmode, hklen, hivlen, hz⟩ := bits_encode_init h
    rw [decode_of_opcode_init hop, unlessReserved_eq_ok hz, hmode, hklen, hivlen]
  | enc len =>
    obtain ⟨hop, hz, hlen⟩ := bits_formatL (opc := 2) (by decide) (of_decide_eq_true h)
    rw [encode, decode_of_opcode_enc hop, unlessReserved_eq_ok hz, hlen]
  | dec len =>
    obtain ⟨hop, hz, hlen⟩ := bits_formatL (opc := 3) (by decide) (of_decide_eq_true h)
    rw [encode, decode_of_opcode_dec hop, unlessReserved_eq_ok hz, hlen]
  | reset | zeroize | rdstat => decide

/-- Settles O3: format by format, the fields of the word are those of the command and its reserved bits are zero. -/
theorem decodeOfEncode : Obligations.DecodeOfEncode := fun _ => decode_encode

/-! ## Encoding a decoded word (R82 to R84, R88) -/

theorem bits_lt (w : CmdWord) (hi lo : Nat) : bits w hi lo < 2 ^ (hi - lo + 1) := Nat.mod_lt _ (Nat.two_pow_pos _)

/-- A field of a word fits the bits it is read from. -/
theorem Decoded.wf {w : CmdWord} {i : Instr} (h : Decoded w (.ok i)) : i.wf = true := by
  cases h with
  | init =>
    simp only [Instr.wf, Bool.and_eq_true, decide_eq_true_eq]
    exact ⟨⟨bits_lt w 27 24, bits_lt w 23 16⟩, bits_lt w 15 8⟩
  | enc | dec => exact decide_eq_true (bits_lt w 23 0)
  | reset | zeroize | rdstat => rfl

/-- The opcode, the other fields and the zero reserved bits make up the word. -/
theorem Decoded.encode_eq {w : CmdWord} {i : Instr} (h : Decoded w (.ok i)) : encode i = w := by
  have hlt := w.isLt
  cases h with
  | init hop hz | enc hop hz | dec hop hz | reset hop hz | zeroize hop hz | rdstat hop hz =>
    apply BitVec.eq_of_toNat_eq
    simp only [bits] at hop hz
    simp only [encode, bits, BitVec.toNat_ofNat]
    omega

/-- Settles O4: the fields of a word and its zero reserved bits make up the word. -/
theorem encodeOfDecode : Obligations.EncodeOfDecode := fun _ _ h =>
  ⟨(decoded_of_decode h).wf, (decoded_of_decode h).encode_eq⟩

/-! ## The rows of the opcode table (R90) -/

/-- The word of a command agrees with the command's row. -/
theorem tableMatch_encode (i : Instr) : Laws.TableMatch.Statement i := by
  cases i with
  | init mode klen ivlen => exact Laws.TableMatch.init mode klen ivlen
  | enc len => exact Laws.TableMatch.enc len
  | dec len => exact Laws.TableMatch.dec len
  | reset => exact Laws.TableMatch.reset
  | zeroize => exact Laws.TableMatch.zeroize
  | rdstat => exact Laws.TableMatch.rdstat

/-- A word that decodes agrees with the row of its command. -/
theorem agrees_of_decode {w : CmdWord} {i : Instr} (h : decode w = .ok i) :
    w &&& Laws.tableMask i = Laws.tableMatch i := by
  have hd := decoded_of_decode h
  exact hd.encode_eq ▸ tableMatch_encode i hd.wf

theorem bits_eq_extractLsb' (w : CmdWord) (hi lo : Nat) : bits w hi lo = (w.extractLsb' lo (hi - lo + 1)).toNat := by
  rw [BitVec.extractLsb'_toNat, Nat.shiftRight_eq_div_pow, bits]

/-- A field all of whose bits are under the mask has the value it has in the match. -/
theorem bits_eq_of_agrees {w mask m : CmdWord} {hi lo : Nat} (h : w &&& mask = m)
    (hf : mask.extractLsb' lo (hi - lo + 1) = BitVec.allOnes _) : bits w hi lo = bits m hi lo := by
  rw [bits_eq_extractLsb', bits_eq_extractLsb', ← h, BitVec.extractLsb'_and, hf, BitVec.and_allOnes]

/-- The masks hold the opcode and the reserved bits of their formats, so a word that agrees with a row is decoded. -/
theorem decode_init_of_agrees {w : CmdWord} (h : w &&& 0xF00000FF = 0x10000000) :
    ∃ m k v, decode w = .ok (.init m k v) := by
  have hop : bits w 31 28 = 1 := bits_eq_of_agrees h (by decide)
  have hz : bits w 7 0 = 0 := bits_eq_of_agrees h (by decide)
  exact ⟨_, _, _, (decode_of_opcode_init hop).trans (unlessReserved_eq_ok hz)⟩

theorem decode_enc_of_agrees {w : CmdWord} (h : w &&& 0xFF000000 = 0x20000000) : ∃ n, decode w = .ok (.enc n) := by
  have hop : bits w 31 28 = 2 := bits_eq_of_agrees h (by decide)
  have hz : bits w 27 24 = 0 := bits_eq_of_agrees h (by decide)
  exact ⟨_, (decode_of_opcode_enc hop).trans (unlessReserved_eq_ok hz)⟩

theorem decode_dec_of_agrees {w : CmdWord} (h : w &&& 0xFF000000 = 0x30000000) : ∃ n, decode w = .ok (.dec n) := by
  have hop : bits w 31 28 = 3 := bits_eq_of_agrees h (by decide)
  have hz : bits w 27 24 = 0 := bits_eq_of_agrees h (by decide)
  exact ⟨_, (decode_of_opcode_dec hop).trans (unlessReserved_eq_ok hz)⟩

/-- A mask of 32 ones leaves one word in the row. -/
theorem eq_of_agrees_all {w m : CmdWord} (h : w &&& 0xFFFFFFFF = m) : w = m := by
  rw [← h]
  exact BitVec.and_allOnes.symm

/-- Settles O2: a decoded word agrees with its command's row, a word that agrees with a row decodes to that command; the
illegal words are those that decode to none of the six. -/
theorem maskAndMatchDecide : Obligations.MaskAndMatchDecide := by
  intro w
  have hinit : (∃ m k v, decode w = .ok (.init m k v)) ↔ w &&& 0xF00000FF = 0x10000000 :=
    ⟨fun ⟨_, _, _, h⟩ => agrees_of_decode h, decode_init_of_agrees⟩
  have henc : (∃ n, decode w = .ok (.enc n)) ↔ w &&& 0xFF000000 = 0x20000000 :=
    ⟨fun ⟨_, h⟩ => agrees_of_decode h, decode_enc_of_agrees⟩
  have hdec : (∃ n, decode w = .ok (.dec n)) ↔ w &&& 0xFF000000 = 0x30000000 :=
    ⟨fun ⟨_, h⟩ => agrees_of_decode h, decode_dec_of_agrees⟩
  have hreset : decode w = .ok .reset ↔ w &&& 0xFFFFFFFF = 0x40000000 :=
    ⟨agrees_of_decode, fun h => eq_of_agrees_all h ▸ by decide⟩
  have hzeroize : decode w = .ok .zeroize ↔ w &&& 0xFFFFFFFF = 0x50000000 :=
    ⟨agrees_of_decode, fun h => eq_of_agrees_all h ▸ by decide⟩
  have hrdstat : decode w = .ok .rdstat ↔ w &&& 0xFFFFFFFF = 0x60000000 :=
    ⟨agrees_of_decode, fun h => eq_of_agrees_all h ▸ by decide⟩
  refine ⟨hinit, henc, hdec, hreset, hzeroize, hrdstat, ?_⟩
  simp only [ne_eq, ← hinit, ← henc, ← hdec, ← hreset, ← hzeroize, ← hrdstat]
  cases decode w with
  | error e => simp
  | ok i => cases i <;> simp

/-! ## The listed words (R94) -/

/-- Settles O1: each word is a closed term. -/
theorem listedWordsDecode : Obligations.ListedWordsDecode := by
  unfold Obligations.ListedWordsDecode
  decide

end Sys2Proof
end

section
/-! PROOFS. O6, O8, O9, O13, O23, O53: what a step and a command make of the request, its payload and the responses
(20_memory.md R54, R63; 30_encoding.md R91; 60_exceptions.md R266; 70_reset_and_hazards.md R294). -/

namespace Sys2Proof.Machine

/-! ## The step (20_memory.md R63) -/

theorem step_idle {s : State} (h : s.requests = []) : step s = .next s := by
  rw [step, fetch, h]

section request
variable {s : State} {r : Request} {rest : List Request} (hr : s.requests = r :: rest)
include hr

theorem step_surplus (hdin : s.din ≠ []) : step s = .fault .surplusInput := by
  have hfetch : fetch s = .surplus := by simp [fetch, hr, hdin]
  rw [step, hfetch]

theorem step_of_decode_error {e : Illegal} (hdin : s.din = []) (hd : decode r.word = .error e) :
    step s = answerIllegal { s with requests := rest, din := r.payload } := by
  have hfetch : fetch s = .illegal { s with requests := rest, din := r.payload } := by simp [fetch, hr, hdin, hd]
  rw [step, hfetch]

/-- What a step on a request can do: answer its illegal word, or run its command on its payload. -/
theorem step_request_cases {t : State} (h : step s = .next t) :
    (∃ e, decode r.word = .error e ∧ t = State.raise { s with requests := rest } .invalidCommand) ∨
    (∃ i, decode r.word = .ok i ∧ exec i { s with requests := rest, din := r.payload } = .next t) := by
  obtain ⟨hnil, -⟩ | ⟨_, _, e, hr', hd, -, -, ht⟩ | ⟨_, _, i, hr', hd, -, hx⟩ := step_cases h
  · cases hr.symm.trans hnil
  · cases hr.symm.trans hr'
    exact .inl ⟨e, hd, ht⟩
  · cases hr.symm.trans hr'
    exact .inr ⟨i, hd, hx⟩

end request

/-- Settles O6: the three things the port can have for the step. -/
theorem stepRunsTheDecodedCommand : Obligations.StepRunsTheDecodedCommand :=
  ⟨fun _ _ _ _ hr hdin hd => step_command hr hdin hd, fun _ => step_idle, fun _ _ _ => step_surplus⟩

/-! ## The declared payload (20_memory.md R54) -/

/-- Every command is guarded by its declared payload. -/
theorem exec_eq_withPayload (i : Instr) (s : State) : ∃ k : List Byte → State, exec i s = withPayload i.paylen s k := by
  cases i with
  | init | enc | dec | reset | zeroize | rdstat =>
    simp only [exec, execInit, execEnc, execDec, execReset, execZeroize, execRdstat]
    exact ⟨_, rfl⟩

theorem exec_of_length_ne {i : Instr} {s : State} (h : s.din.length ≠ i.paylen) : exec i s = .fault .payloadLength := by
  obtain ⟨k, hk⟩ := exec_eq_withPayload i s
  rw [hk, withPayload_of_length_ne h]

theorem exec_of_length {i : Instr} {s : State} (h : s.din.length = i.paylen) : ∃ t, exec i s = .next t := by
  obtain ⟨k, hk⟩ := exec_eq_withPayload i s
  exact ⟨_, hk.trans (withPayload_of_length h)⟩

/-- Settles O8: a command and an illegal word alike are guarded by the payload they declare. -/
theorem wrongPayloadLengthStops : Obligations.WrongPayloadLengthStops := by
  refine ⟨fun _ _ => exec_of_length_ne, fun s r rest hr hdin hl => ?_⟩
  cases hd : decode r.word with
  | ok i =>
    rw [paylen_of_decode_ok hd] at hl
    exact (step_command hr hdin hd).trans (exec_of_length_ne hl)
  | error e =>
    rw [paylen_of_decode_error hd] at hl
    exact (step_of_decode_error hr hdin hd).trans (withPayload_of_length_ne hl)

/-- Settles O9: with its declared payload a command answers next, and every completion adds one legal response. -/
theorem everyCommandGetsOneResponse : Obligations.EveryCommandGetsOneResponse := by
  intro i s hl
  obtain ⟨t, h⟩ := exec_of_length hl
  obtain ⟨-, hc⟩ := exec_completes h
  obtain ⟨hreq, hdin⟩ := hc.ports
  obtain ⟨r, hresp, hlegal⟩ := hc.response
  exact ⟨t, r, h, hreq, hdin, hresp, hlegal⟩

/-- Settles O53: waiting and answering an illegal word leave the empty stream as it is, a completed command empties it. -/
theorem stepLeavesNoInputOver : Obligations.StepLeavesNoInputOver := by
  intro s t hdin h
  obtain ⟨-, rfl⟩ | ⟨_, _, _, -, -, -, -, rfl⟩ | ⟨_, _, _, -, -, -, hx⟩ := step_cases h
  · exact hdin
  · exact hdin
  · exact (exec_completes hx).2.ports.2

/-! ## The responses (30_encoding.md R91, R92) -/

/-- A step adds at most one response, a legal one. -/
theorem step_responses {s t : State} (h : step s = .next t) :
    ∃ added, t.responses = s.responses ++ added ∧ ∀ r ∈ added, r.Legal := by
  obtain ⟨-, rfl⟩ | ⟨_, _, _, -, -, -, -, rfl⟩ | ⟨_, _, _, -, -, -, hx⟩ := step_cases h
  · exact ⟨[], by simp, by simp⟩
  · refine ⟨_, raise_responses _ _, fun r hr => ?_⟩
    exact .inr ⟨.invalidCommand, List.mem_singleton.mp hr⟩
  · obtain ⟨r, hresp, hlegal⟩ := (exec_completes hx).2.response
    exact ⟨[r], hresp, fun _ hr => List.mem_singleton.mp hr ▸ hlegal⟩

/-- Settles O23: the responses given before stay, what a step adds to them is legal. -/
theorem stepKeepsResponsesLegal : Obligations.StepKeepsResponsesLegal := by
  intro s t hs h
  obtain ⟨added, ht, hadded⟩ := step_responses h
  rw [ht]
  exact ⟨fun r hr => (List.mem_append.mp hr).elim (hs r) (hadded r), added, rfl⟩

/-! ## Rejections (60_exceptions.md R255, R266) -/

/-- What a command's own checks say of the registers: the error it is rejected with, if any. They read neither the payload nor
the port (60_exceptions.md R267, R268). -/
def rejection (r : Regs) : Instr → Option Err
  | .init code klen ivlen =>
    match checkInit code klen ivlen with
    | .error e => some e
    | .ok _ => none
  | .enc n => dataError r n
  | .dec n => dataError r n
  | .reset => if r.valid = false then some .noSession else none
  | .zeroize => none
  | .rdstat => none

/-- A command on its declared payload is rejected exactly as its checks say. -/
theorem exec_of_rejection {i : Instr} {s : State} {e : Err} (hl : s.din.length = i.paylen)
    (h : rejection s.regs i = some e) : exec i s = .next (s.raise e) := by
  cases i with
  | init code klen ivlen =>
    simp only [rejection] at h
    split at h
    · next e' he =>
      cases h
      exact execInit_error hl he
    · cases h
  | enc n => exact execEnc_error hl h
  | dec n => exact execDec_error hl h
  | reset =>
    simp only [rejection] at h
    split at h
    · next hv =>
      cases h
      exact execReset_empty (List.length_eq_zero_iff.mp hl) hv
    · cases h
  | zeroize | rdstat => cases h

/-- A command whose checks pass is answered with code 0. -/
theorem exec_of_no_rejection {i : Instr} {s : State} (hl : s.din.length = i.paylen) (h : rejection s.regs i = none) :
    ∃ regs dout extra, exec i s = .next (s.respond regs dout extra) := by
  cases i with
  | init code klen ivlen =>
    simp only [rejection] at h
    split at h
    · cases h
    · next mk hc => exact ⟨_, _, _, execInit_ok hl hc⟩
  | enc n => exact ⟨_, _, _, execEnc_ok hl h⟩
  | dec n => exact ⟨_, _, _, execDec_ok hl h⟩
  | reset =>
    simp only [rejection] at h
    split at h
    · cases h
    · next hv => exact ⟨_, _, _, execReset_active (List.length_eq_zero_iff.mp hl) (Bool.eq_true_of_not_eq_false hv)⟩
  | zeroize => exact ⟨_, _, _, execZeroize_eq (List.length_eq_zero_iff.mp hl)⟩
  | rdstat => exact ⟨_, _, _, execRdstat_eq (List.length_eq_zero_iff.mp hl)⟩

/-- A completed command with a code other than 0 was rejected by its checks. -/
theorem exec_rejected {i : Instr} {s t : State} {r : Response} (h : exec i s = .next t)
    (hr : t.responses = s.responses ++ [r]) (hne : r.status ≠ okWord) :
    ∃ e, rejection s.regs i = some e ∧ t = s.raise e ∧ r = ⟨e.word, [], none⟩ := by
  obtain ⟨hl, -⟩ := exec_completes h
  cases hx : rejection s.regs i with
  | some e =>
    cases (exec_of_rejection hl hx).symm.trans h
    exact ⟨e, rfl, rfl, response_eq hr rfl⟩
  | none =>
    obtain ⟨regs, dout, extra, hok⟩ := exec_of_no_rejection hl hx
    cases hok.symm.trans h
    exact absurd (congrArg Response.status (response_eq hr rfl)) hne

/-- Settles O13: the checks see the registers only, which the rejection has left as they were. -/
theorem rejectionRepeats : Obligations.RejectionRepeats := by
  intro i s t r h hr hne
  obtain ⟨hl, -⟩ := exec_completes h
  obtain ⟨e, hx, rfl, rfl⟩ := exec_rejected h hr hne
  exact ⟨_, exec_of_rejection (s := { s.raise e with din := s.din }) hl hx, rfl, rfl⟩

end Sys2Proof.Machine
end

section
/-! PROOFS. O21, O22: the invariant holds after power-on reset and every step keeps it (10_state.md R32). -/

namespace Sys2Proof.Machine

/-! ## Power-on, `ZEROIZE` and `RESET` -/

/-- An Empty engine with the power-on values meets the invariant. -/
theorem powerOn_inv : Regs.powerOn.Inv where
  empty _ := rfl
  active h := by cases h
  block _ := ⟨rfl, rfl⟩
  ecb _ := ⟨rfl, rfl⟩
  pos := le_rfl
  keystream h _ := by cases h

/-- Settles O21: reset leaves the power-on values. -/
theorem invariantAtPowerOn : Obligations.InvariantAtPowerOn := powerOn_inv

/-- `RESET` keeps the session's registers and puts the others at a block boundary. -/
theorem rewind_inv {r : Regs} (h : r.Inv) (hv : r.valid = true) : (rewind r).Inv where
  empty hf := absurd (hv.symm.trans hf) (by decide)
  active := h.active
  block _ := ⟨rfl, rfl⟩
  ecb hm := ⟨(h.ecb hm).1, (h.ecb hm).1⟩
  pos := le_rfl
  keystream _ hp := absurd hp (lt_irrefl 16)

/-! ## `INIT` -/

theorem keyword_succ (key : List Byte) (i : Nat) : keyword key (i + 1) = keyword (key.drop 4) i := by
  simp only [keyword, wordAt, List.getD_eq_getElem?_getD, List.getElem?_drop]
  simp only [Nat.mul_add, Nat.mul_one, Nat.add_comm, Nat.add_left_comm]

theorem keyword_zero_bytes {key : List Byte} (h : 4 ≤ key.length) : (keyword key 0).bytes = key.take 4 := by
  match key, h with
  | _ :: _ :: _ :: _ :: _, _ => rfl

/-- The words of a key hold its bytes in order (40_key_schedule.md R112). -/
theorem flatMap_keyword_bytes {n : Nat} {key : List Byte} (h : key.length = 4 * n) :
    ((List.range n).flatMap fun i => (keyword key i).bytes) = key := by
  induction n generalizing key with
  | zero => simp_all
  | succ n ih =>
    rw [List.range_succ_eq_map, List.flatMap_cons, List.flatMap_map, keyword_zero_bytes (by omega)]
    simp only [Nat.succ_eq_add_one, keyword_succ]
    rw [ih (by rw [List.length_drop]; omega), List.take_append_drop]

/-- The key is read back from the schedule of a new session (40_key_schedule.md R127). -/
theorem newSession_keyBytes (m : Mode) {k : KeyWords} {key : List Byte} (iv : Block) (h : key.length = 4 * k.words) :
    (newSession m k key iv).keyBytes = key := by
  have hword : ∀ i ∈ List.range k.words, ((expandKey k key).word i).bytes = (keyword key i).bytes := fun i hi => by
    rw [expandKey_word_key k key (List.mem_range.mp hi)]
  rw [Regs.keyBytes, newSession_nk, newSession_ek, List.flatMap_congr hword, flatMap_keyword_bytes h]

/-- A new session under a key of its length meets the invariant. -/
theorem newSession_inv (m : Mode) {k : KeyWords} {key : List Byte} (iv : Block) (hk : k ≠ .k0)
    (h : key.length = 4 * k.words) : (newSession m k key iv).Inv where
  empty hf := by cases hf
  active _ := ⟨hk, by rw [newSession_keyBytes m iv h]; rfl, rfl⟩
  block _ := ⟨rfl, rfl⟩
  ecb hm := by
    have hiv : (if m = .ecb then Block.zero else iv) = Block.zero := if_pos hm
    exact ⟨hiv, hiv⟩
  pos := le_rfl
  keystream _ hp := absurd hp (lt_irrefl 16)

/-- The key length of a session is a legal one, in words. -/
theorem KeyWords.ofKlen_words {klen : Nat} {k : KeyWords} (h : KeyWords.ofKlen klen = some k) :
    k ≠ .k0 ∧ klen = 4 * k.words := by
  by_cases hk : klen = 16 ∨ klen = 24 ∨ klen = 32
  · obtain rfl | rfl | rfl := hk
    all_goals
      cases h
      decide
  · rw [KeyWords.ofKlen_eq_none hk] at h
    cases h

/-- An `INIT` that passes its checks has the mode and the key length its fields name. -/
theorem checkInit_eq_ok {code klen ivlen : Nat} {m : Mode} {k : KeyWords} (h : checkInit code klen ivlen = .ok (m, k)) :
    Mode.ofCode code = some m ∧ KeyWords.ofKlen klen = some k := by
  unfold checkInit at h
  split at h
  · cases h
  · next k' hk =>
    split at h
    · cases h
    · next m' hm =>
      split at h
      · cases h
      · cases h
        exact ⟨hm, hk⟩

/-! ## `ENC` and `DEC` -/

/-- A keystream step starts the block whose keystream it computes (R192). -/
theorem nextKeystream_keystreamOf (r : Regs) : (nextKeystream r).keystreamOf r.chain := by
  have hs := nextKeystream_same r
  refine ⟨by rw [nextKeystream_ks, hs.forward], ?_⟩
  rw [hs.mode]
  cases hm : r.mode with
  | ecb | cbc => trivial
  | cfb =>
    intro j _ _
    rw [nextKeystream_chain_cfb hm]
  | ofb => exact (nextKeystream_chain_ofb hm).trans (nextKeystream_ks r).symm
  | ctr => exact nextKeystream_chain_ctr hm

/-- Behind the keystream step of the loop the engine holds the keystream of the block it is in. -/
theorem keystreamReady_keystreamOf {r : Regs} (h : r.pos.val < 16 → ∃ begun, r.keystreamOf begun) :
    ∃ begun, (keystreamReady r).keystreamOf begun := by
  by_cases hp : r.pos = 16
  · rw [keystreamReady_at_boundary hp]
    exact ⟨_, nextKeystream_keystreamOf r⟩
  · have hlt : r.pos.val < 16 := by
      have hle := r.pos.isLt
      have hne : r.pos.val ≠ 16 := fun hv => hp (Fin.ext hv)
      omega
    rw [keystreamReady_in_block hlt]
    exact h hlt

/-- The byte that CFB writes into `CHAIN` is one of those already used (10_state.md R27). -/
theorem streamByte_keystreamOf (dir : Dir) {r : Regs} (b : Byte) {begun : Block}
    (h : (keystreamReady r).keystreamOf begun) : (streamByte dir r b).2.keystreamOf begun := by
  have hlt := keystreamReady_pos_lt r
  rw [streamByte_eq]
  obtain ⟨hks, hchain⟩ := h
  refine ⟨hks, ?_⟩
  cases hm : (keystreamReady r).mode with
  | ecb | cbc => trivial
  | ofb | ctr =>
    rw [hm] at hchain
    exact hchain
  | cfb =>
    rw [hm] at hchain
    intro j hj h16
    have hj' : (keystreamReady r).pos.val < j := by rwa [nextPos_val hlt] at hj
    simp only [if_true]
    rw [Block.byte_setByte _ _ _ _ hlt, if_neg hj'.ne']
    exact hchain j hj'.le h16

/-- The byte loop always holds the keystream of the block it is in (R32 (f)). -/
theorem stream_keystreamOf (dir : Dir) {r : Regs} (bs : List Byte) (h : r.pos.val < 16 → ∃ begun, r.keystreamOf begun) :
    (stream dir r bs).2.pos.val < 16 → ∃ begun, (stream dir r bs).2.keystreamOf begun := by
  induction bs generalizing r with
  | nil => exact h
  | cons b bs ih =>
    obtain ⟨begun, hq⟩ := keystreamReady_keystreamOf h
    exact ih fun _ => ⟨begun, streamByte_keystreamOf dir b hq⟩

/-- Registers of one session read the same key. -/
theorem SameSession.keyBytes {r r' : Regs} (h : SameSession r r') : r'.keyBytes = r.keyBytes := by
  rw [Regs.keyBytes, h.nk, h.ek, Regs.keyBytes]

/-- The block modes leave `KS` and `POS`, and ECB leaves `CHAIN` (10_state.md R35). -/
theorem crypt_block_regs (dir : Dir) {r : Regs} (din : List Byte) (h : r.mode.isBlock = true) :
    (crypt dir r din).2 = { r with chain := (crypt dir r din).2.chain } ∧ (r.mode = .ecb → (crypt dir r din).2 = r) := by
  obtain hm | hm := (Mode.isBlock_iff _).mp h
  · rw [crypt_ecb dir hm]
    exact ⟨rfl, fun _ => rfl⟩
  · refine ⟨?_, fun he => by rw [he] at hm; cases hm⟩
    cases dir with
    | enc => rw [crypt_cbc_enc hm]
    | dec => rw [crypt_cbc_dec hm]

/-- The mode engine keeps the invariant of an Active engine. -/
theorem crypt_inv (dir : Dir) {r : Regs} (din : List Byte) (h : r.Inv) (hv : r.valid = true) : (crypt dir r din).2.Inv := by
  have hs := crypt_same dir r din
  refine ⟨fun hf => ?_, fun _ => ?_, fun hm => ?_, fun hm => ?_, Nat.le_of_lt_succ (Fin.isLt _), fun hm => ?_⟩
  · exact absurd (hv.symm.trans (hs.valid.symm.trans hf)) (by decide)
  · rw [hs.nk, hs.ek, hs.dk, hs.keyBytes]
    exact h.active hv
  · rw [hs.mode] at hm
    rw [(crypt_block_regs dir din hm).1]
    exact h.block hm
  · rw [hs.mode] at hm
    rw [(crypt_block_regs dir din (by rw [hm]; rfl)).2 hm]
    exact h.ecb hm
  · rw [hs.mode] at hm
    rw [crypt_stream din hm]
    exact stream_keystreamOf dir din (h.keystream hm)

/-! ## The step -/

/-- What a `RESET` that completes can do: be rejected on an Empty engine, or rewind the session. -/
theorem exec_reset_cases {s t : State} (h : exec .reset s = .next t) :
    (s.regs.valid = false ∧ t = s.raise .noSession) ∨
    (s.regs.valid = true ∧ t = s.respond (rewind s.regs) [] none) := by
  have hd := List.length_eq_zero_iff.mp (exec_completes h).1
  cases hv : s.regs.valid with
  | false =>
    cases (execReset_empty hd hv).symm.trans h
    exact .inl ⟨rfl, rfl⟩
  | true =>
    cases (execReset_active hd hv).symm.trans h
    exact .inr ⟨rfl, rfl⟩

/-- A `ZEROIZE` that completes leaves the power-on values. -/
theorem exec_zeroize_next {s t : State} (h : exec .zeroize s = .next t) : t = s.respond Regs.powerOn [] none := by
  have hd := List.length_eq_zero_iff.mp (exec_completes h).1
  cases (execZeroize_eq hd).symm.trans h
  rfl

theorem exec_command_inv {dir : Dir} {n : Nat} {s t : State} (hs : s.regs.Inv)
    (h : exec (dir.command n) s = .next t) : t.regs.Inv := by
  obtain ⟨e, -, rfl⟩ | ⟨hc, -, rfl⟩ := exec_command_cases h
  · exact hs
  · exact crypt_inv dir s.din hs (dataError_eq_none_iff.mp hc).1

/-- Every command keeps the invariant. -/
theorem exec_inv {i : Instr} {s t : State} (hs : s.regs.Inv) (h : exec i s = .next t) : t.regs.Inv := by
  cases i with
  | init code klen ivlen =>
    obtain ⟨e, -, rfl⟩ | ⟨m, k, hc, hl, rfl⟩ := exec_init_cases h
    · exact hs
    · obtain ⟨hk, hklen⟩ := KeyWords.ofKlen_words (checkInit_eq_ok hc).2
      refine newSession_inv m _ hk ?_
      rw [keyOperand, List.length_take, hl, ← hklen, Nat.min_eq_left (Nat.le_add_right _ _)]
  | enc n => exact exec_command_inv (dir := .enc) hs h
  | dec n => exact exec_command_inv (dir := .dec) hs h
  | reset =>
    obtain ⟨-, rfl⟩ | ⟨hv, rfl⟩ := exec_reset_cases h
    · exact hs
    · exact rewind_inv hs hv
  | zeroize =>
    obtain rfl := exec_zeroize_next h
    exact powerOn_inv
  | rdstat =>
    obtain rfl := exec_rdstat_next h
    exact hs

/-- Settles O22: waiting and rejecting an illegal word write no register, every command keeps the invariant. -/
theorem stepKeepsTheInvariant : Obligations.StepKeepsTheInvariant := by
  intro s t hs h
  obtain ⟨-, rfl⟩ | ⟨_, _, _, -, -, -, -, rfl⟩ | ⟨_, _, _, -, -, -, hx⟩ := step_cases h
  · exact hs
  · exact hs
  · refine exec_inv ?_ hx
    exact hs

end Sys2Proof.Machine
end

section
/-! PROOFS. O15, O19, O24, O25, O26: what each command writes, the lifecycle of a session, and what does not show in an answer
(10_state.md R23 to R26, R30, R35; 43_session_commands.md R220, R225). -/

namespace Sys2Proof.Machine

/-! ## What each command writes (10_state.md R35) -/

/-- `ENC` and `DEC` write `CHAIN`, `KS` and `POS` at most. -/
theorem exec_command_same {dir : Dir} {n : Nat} {s t : State} (h : exec (dir.command n) s = .next t) :
    SameSession s.regs t.regs := by
  obtain ⟨e, -, rfl⟩ | ⟨-, -, rfl⟩ := exec_command_cases h
  · exact .refl _
  · exact crypt_same dir s.regs s.din

/-- In the block modes they write `CHAIN` at most, in ECB nothing. -/
theorem exec_command_block_regs {dir : Dir} {n : Nat} {s t : State} (h : exec (dir.command n) s = .next t)
    (hm : s.regs.mode.isBlock = true) :
    t.regs = { s.regs with chain := t.regs.chain } ∧ (s.regs.mode = .ecb → t.regs = s.regs) := by
  obtain ⟨e, -, rfl⟩ | ⟨-, -, rfl⟩ := exec_command_cases h
  · exact ⟨rfl, fun _ => rfl⟩
  · exact crypt_block_regs dir s.din hm

theorem exec_reset_same {s t : State} (h : exec .reset s = .next t) : SameSession s.regs t.regs := by
  obtain ⟨-, rfl⟩ | ⟨-, rfl⟩ := exec_reset_cases h
  · exact .refl _
  · exact rfl

theorem exec_rdstat_regs {s t : State} (h : exec .rdstat s = .next t) : t.regs = s.regs := by
  obtain rfl := exec_rdstat_next h
  rfl

/-- Settles O24: the frame of each command from what it can do when it completes. -/
theorem onlyTheTableIsWritten : Obligations.OnlyTheTableIsWritten := by
  refine fun s t => ⟨fun dir n h => ⟨fun hm => ?_, fun hm => ?_, exec_command_same h⟩, exec_reset_same, exec_rdstat_regs⟩
  · exact (exec_command_block_regs h ((Mode.isBlock_iff _).mpr (.inl hm))).2 hm
  · exact (exec_command_block_regs h ((Mode.isBlock_iff _).mpr (.inr hm))).1

/-! ## The registers of the session (10_state.md R23 to R26) -/

/-- A command whose word has neither `INIT`'s opcode nor `ZEROIZE`'s writes none of the session's registers. -/
theorem exec_same {w : CmdWord} {i : Instr} {s t : State} (hd : Decoded w (.ok i)) (h1 : bits w 31 28 ≠ 1)
    (h5 : bits w 31 28 ≠ 5) (h : exec i s = .next t) : SameSession s.regs t.regs := by
  cases hd with
  | init hop => exact absurd hop h1
  | enc => exact exec_command_same (dir := .enc) h
  | dec => exact exec_command_same (dir := .dec) h
  | reset => exact exec_reset_same h
  | zeroize hop => exact absurd hop h5
  | rdstat =>
    rw [exec_rdstat_regs h]
    exact .refl _

theorem step_same {s t : State} {r : Request} {rest : List Request} (hr : s.requests = r :: rest)
    (h1 : bits r.word 31 28 ≠ 1) (h5 : bits r.word 31 28 ≠ 5) (h : step s = .next t) : SameSession s.regs t.regs := by
  obtain ⟨e, -, rfl⟩ | ⟨i, hd, hx⟩ := step_request_cases hr h
  · exact .refl _
  · have hs := exec_same (decoded_of_decode hd) h1 h5 hx
    exact hs

/-- Settles O25: such a step stays in the session. -/
theorem onlyInitAndZeroizeTouchTheKey : Obligations.OnlyInitAndZeroizeTouchTheKey := by
  intro s t r rest hr h h1 h5
  have hs := step_same hr h1 h5 h
  exact ⟨hs.ek, hs.dk, hs.iv0, hs.valid, hs.mode, hs.nk⟩

/-! ## The lifecycle (43_session_commands.md R220) -/

/-- What an `INIT` does to the lifecycle: rejected, nothing; answered with code 0, the engine is Active. -/
theorem exec_init_lifecycle {code klen ivlen : Nat} {s t : State} (h : exec (.init code klen ivlen) s = .next t) :
    (t.regs = s.regs ∧ t.responses ≠ s.responses ++ [⟨okWord, [], none⟩]) ∨
    (t.regs.valid = true ∧ t.responses = s.responses ++ [⟨okWord, [], none⟩]) := by
  obtain ⟨e, -, rfl⟩ | ⟨m, k, -, -, rfl⟩ := exec_init_cases h
  · refine .inl ⟨rfl, fun hr => word_ne_ok e ?_⟩
    exact congrArg Response.status (response_eq (raise_responses s e) hr)
  · exact .inr ⟨rfl, rfl⟩

/-- What a step on a word with `INIT`'s opcode does to the lifecycle, reserved bits or not. -/
theorem step_init_lifecycle {s t : State} {r : Request} {rest : List Request} (hr : s.requests = r :: rest)
    (h1 : bits r.word 31 28 = 1) (h : step s = .next t) :
    (t.regs = s.regs ∧ t.responses ≠ s.responses ++ [⟨okWord, [], none⟩]) ∨
    (t.regs.valid = true ∧ t.responses = s.responses ++ [⟨okWord, [], none⟩]) := by
  obtain ⟨e, -, rfl⟩ | ⟨i, hd, hx⟩ := step_request_cases hr h
  · refine .inl ⟨rfl, fun ht => word_ne_ok .invalidCommand ?_⟩
    exact congrArg Response.status (response_eq (raise_responses _ _) ht)
  · cases decoded_of_decode hd with
    | init =>
      have hlife := exec_init_lifecycle hx
      exact hlife
    | enc hop | dec hop | reset hop | zeroize hop | rdstat hop => omega

/-- What a step on a word with `ZEROIZE`'s opcode does to the lifecycle: nothing, or the word is `0x50000000` and the engine is
Empty. -/
theorem step_zeroize_lifecycle {s t : State} {r : Request} {rest : List Request} (hr : s.requests = r :: rest)
    (h5 : bits r.word 31 28 = 5) (h : step s = .next t) :
    (r.word ≠ 0x50000000 ∧ t.regs = s.regs) ∨ (r.word = 0x50000000 ∧ t.regs.valid = false) := by
  obtain ⟨e, hd, rfl⟩ | ⟨i, hd, hx⟩ := step_request_cases hr h
  · refine .inl ⟨fun hw => ?_, rfl⟩
    rw [hw] at hd
    exact absurd (hd.symm.trans (show decode 0x50000000 = .ok .zeroize by decide)) (by simp)
  · have hdec := decoded_of_decode hd
    have hword := hdec.encode_eq
    cases hdec with
    | zeroize =>
      obtain rfl := exec_zeroize_next hx
      exact .inr ⟨hword.symm, rfl⟩
    | init hop | enc hop | dec hop | reset hop | rdstat hop => omega

/-- Where `VALID` stays there is no transition of the lifecycle. -/
theorem no_transition {v v' b : Bool} {P : Prop} (h : v' = v) (hv : v = b) (hv' : v' = !b) : P := by
  subst h hv
  cases v' <;> cases hv'

/-- Settles O26: a step with another opcode leaves `VALID`, the two others do to the lifecycle what is said above. -/
theorem onlyInitStartsAndOnlyZeroizeEndsASession : Obligations.OnlyInitStartsAndOnlyZeroizeEndsASession := by
  intro s t r rest hr h
  have hzero : bits 0x50000000 31 28 = 5 := by decide
  by_cases h1 : bits r.word 31 28 = 1
  · have hne : r.word ≠ 0x50000000 := fun hw => by rw [hw, hzero] at h1; cases h1
    obtain ⟨hregs, hresp⟩ | ⟨hv, hresp⟩ := step_init_lifecycle hr h1 h
    · rw [hregs]
      exact ⟨no_transition rfl, no_transition rfl, fun hw => absurd hw hne,
        fun _ ht => absurd ht hresp⟩
    · exact ⟨fun _ _ => ⟨h1, hresp⟩, fun _ he => by simp [hv] at he, fun hw => absurd hw hne, fun _ _ => hv⟩
  · by_cases h5 : bits r.word 31 28 = 5
    · obtain ⟨hne, hregs⟩ | ⟨hw, hv⟩ := step_zeroize_lifecycle hr h5 h
      · rw [hregs]
        exact ⟨no_transition rfl, no_transition rfl, fun hw => absurd hw hne,
          fun hop => absurd hop h1⟩
      · exact ⟨fun _ ha => by simp [hv] at ha, fun _ _ => hw, fun _ => hv, fun hop => absurd hop h1⟩
    · rw [(step_same hr h1 h5 h).valid]
      exact ⟨no_transition rfl, no_transition rfl,
        fun hw => absurd (hw ▸ hzero) h5, fun hop => absurd hop h1⟩

/-! ## What an answer does not show (10_state.md R30; 43_session_commands.md R225) -/

/-- `STATUS` reads four registers (10_state.md R30). -/
theorem status_congr {r r' : Regs} (hv : r.valid = r'.valid) (hm : r.mode = r'.mode) (hk : r.nk = r'.nk)
    (hp : r.pos = r'.pos) : r.status = r'.status := by
  rw [Regs.status, hv, hm, hk, hp, Regs.status]

/-- Settles O19: `RDSTAT` answers `STATUS` and nothing else. -/
theorem rdstatHidesTheKey : Obligations.RdstatHidesTheKey := by
  intro s s' t t' r r' h h' hr hr' hv hm hk hp
  obtain rfl := exec_rdstat_next h
  obtain rfl := exec_rdstat_next h'
  rw [response_eq hr rfl, response_eq hr' rfl, status_congr hv hm hk hp]

/-- An `INIT` answered with code 0 leaves the session of its mode, key length, key and IV. -/
theorem exec_init_ok_regs {code klen ivlen : Nat} {s t : State} {r : Response}
    (h : exec (.init code klen ivlen) s = .next t) (hr : t.responses = s.responses ++ [r]) (hok : r.status = okWord) :
    ∃ m k, Mode.ofCode code = some m ∧ KeyWords.ofKlen klen = some k ∧
      t.regs = newSession m k (s.din.take klen) (Block.ofBytes (s.din.drop klen)) := by
  obtain ⟨e, -, rfl⟩ | ⟨m, k, hc, -, rfl⟩ := exec_init_cases h
  · rw [response_eq hr rfl] at hok
    exact absurd hok (word_ne_ok e)
  · obtain ⟨hm, hk⟩ := checkInit_eq_ok hc
    exact ⟨m, k, hm, hk, rfl⟩

/-- An ECB session has no IV (43_session_commands.md R223). -/
theorem newSession_ecb (k : KeyWords) (key : List Byte) (iv iv' : Block) :
    newSession .ecb k key iv = newSession .ecb k key iv' := rfl

/-- Settles O15: the session is made of mode, key and IV, and in ECB of no IV. -/
theorem initForgetsThePast : Obligations.InitForgetsThePast := by
  intro code klen ivlen ivlen' s s' t t' rs rs' h hr hok h' hr' hok' hkey hiv
  obtain ⟨m, k, hm, hk, hregs⟩ := exec_init_ok_regs h hr hok
  obtain ⟨m', k', hm', hk', hregs'⟩ := exec_init_ok_regs h' hr' hok'
  cases hm.symm.trans hm'
  cases hk.symm.trans hk'
  rw [hregs, hregs', hkey]
  by_cases hcode : code = 0
  · subst hcode
    cases hm
    exact newSession_ecb k _ _ _
  · rw [hiv hcode]

end Sys2Proof.Machine
end

section
/-! PROOFS. O47, O48, O49, O50: the counter of CTR, what the byte loop does not read, and commands of no bytes
(42_mode_engine.md R193, R194, R197, R203, R206). -/

namespace Sys2Proof.Machine

/-! ## No bytes (R206) -/

theorem crypt_nil (dir : Dir) (r : Regs) : crypt dir r [] = ([], r) := by
  cases hm : r.mode with
  | ecb => exact crypt_ecb dir hm []
  | cbc =>
    cases dir with
    | enc => exact crypt_cbc_enc hm []
    | dec => exact crypt_cbc_dec hm []
  | cfb | ofb | ctr => exact crypt_stream [] (by rw [hm]; rfl)

/-- Settles O50: zero bytes are aligned, and the mode engine does nothing on them. -/
theorem zeroLengthChangesNothing : Obligations.ZeroLengthChangesNothing := by
  intro dir s hv hd
  refine answersOk_of_crypt hv (fun _ => rfl) (List.length_eq_zero_iff.mpr hd) ?_
  rw [hd, crypt_nil]

/-! ## The direction (R193, R194) -/

/-- Outside CFB no pass of the loop sees the direction. -/
theorem stream_direction {r : Regs} (hm : r.mode ≠ .cfb) (dir dir' : Dir) (bs : List Byte) :
    stream dir r bs = stream dir' r bs := by
  induction bs generalizing r with
  | nil => rfl
  | cons b bs ih =>
    have hq : (keystreamReady r).mode ≠ .cfb := by rwa [(keystreamReady_same r).mode]
    have hb : streamByte dir r b = streamByte dir' r b := by
      rw [streamByte_eq, streamByte_eq, if_neg hq, if_neg hq]
    have hnext : (streamByte dir' r b).2.mode ≠ .cfb := by rwa [(streamByte_same dir' r b).mode]
    rw [stream, stream, hb, ih hnext]

theorem encrypt_eq_decrypt {r : Regs} (hm : r.mode = .ofb ∨ r.mode = .ctr) (din : List Byte) :
    encrypt r din = decrypt r din := by
  have hcfb : r.mode ≠ .cfb := fun h => by simp [h] at hm
  have hblock := isBlock_eq_false (.inr hm)
  calc encrypt r din = stream .enc r din := crypt_stream (dir := .enc) din hblock
    _ = stream .dec r din := stream_direction hcfb .enc .dec din
    _ = decrypt r din := (crypt_stream (dir := .dec) din hblock).symm

/-- Settles O48: the two commands check the same and run the same loop. -/
theorem ofbAndCtrHaveNoDirection : Obligations.OfbAndCtrHaveNoDirection := by
  intro s n hm
  simp only [exec, execEnc, execDec, encrypt_eq_decrypt hm]

/-! ## The inverse schedule (R197) -/

/-- The registers with another content of `DK`. -/
def Regs.withDk (r : Regs) (x : Schedule) : Regs := { r with dk := x }

theorem nextKeystream_withDk (r : Regs) (x : Schedule) : nextKeystream (r.withDk x) = (nextKeystream r).withDk x := by
  obtain ⟨_, mode, _, _, _, _, _, _, _⟩ := r
  cases mode <;> rfl

theorem keystreamReady_withDk (r : Regs) (x : Schedule) : keystreamReady (r.withDk x) = (keystreamReady r).withDk x := by
  by_cases hp : r.pos = 16
  · rw [keystreamReady_at_boundary hp, keystreamReady_at_boundary (r := r.withDk x) hp, nextKeystream_withDk]
  · rw [keystreamReady, keystreamReady, if_neg hp, if_neg (show (r.withDk x).pos ≠ 16 from hp)]

theorem streamByte_withDk (dir : Dir) (r : Regs) (x : Schedule) (b : Byte) :
    streamByte dir (r.withDk x) b = ((streamByte dir r b).1, (streamByte dir r b).2.withDk x) := by
  rw [streamByte_eq, streamByte_eq, keystreamReady_withDk]
  rfl

theorem stream_withDk (dir : Dir) (r : Regs) (x : Schedule) (bs : List Byte) :
    stream dir (r.withDk x) bs = ((stream dir r bs).1, (stream dir r bs).2.withDk x) := by
  induction bs generalizing r with
  | nil => rfl
  | cons b bs ih => rw [stream, streamByte_withDk, ih, stream]

/-- The checks of `ENC` and `DEC` do not read `DK`. -/
theorem dataError_withDk (r : Regs) (x : Schedule) (n : Nat) : dataError (r.withDk x) n = dataError r n := rfl

/-- Settles O49: neither the checks nor the byte loop read `DK`. -/
theorem streamModesIgnoreTheInverseSchedule : Obligations.StreamModesIgnoreTheInverseSchedule := by
  intro dir s n x hm t h
  obtain ⟨hl, -⟩ := exec_completes h
  rw [paylen_command] at hl
  obtain ⟨e, hc, rfl⟩ | ⟨hc, -, rfl⟩ := exec_command_cases h
  · exact exec_command_error (s := { s with regs := s.regs.withDk x }) hl hc
  · refine (exec_command_ok (s := { s with regs := s.regs.withDk x }) hl hc).trans ?_
    have hcrypt : crypt dir (s.regs.withDk x) s.din =
        ((crypt dir s.regs s.din).1, (crypt dir s.regs s.din).2.withDk x) := by
      rw [crypt_stream s.din hm, crypt_stream (r := s.regs.withDk x) s.din hm, stream_withDk]
    simp only [hcrypt]
    rfl

/-! ## The counter of CTR (R203) -/

theorem be128_inc128 (B : Block) : be128 (inc128 B) = (be128 B + 1) % 2 ^ 128 := be128_blk128 (Nat.mod_lt _ (by decide))

/-- At the start of a session no byte has been used and no block begun. -/
theorem Regs.Fresh.ctrProgress {r : Regs} (h : r.Fresh) : r.CtrProgress 0 := by
  obtain ⟨hchain, -, hpos⟩ := h
  refine ⟨?_, by rw [hpos]; rfl⟩
  have hbegun : (0 + 15) / 16 = 0 := rfl
  rw [hchain, hbegun, Nat.add_zero, Nat.mod_eq_of_lt (be128_lt r.iv0)]

/-- A pass of the loop in CTR advances the counter exactly at a block boundary. -/
theorem streamByte_chain_ctr (dir : Dir) {r : Regs} (hm : r.mode = .ctr) (b : Byte) :
    (streamByte dir r b).2.chain = if r.pos.val = 16 then inc128 r.chain else r.chain := by
  have hq : (keystreamReady r).mode ≠ .cfb := by rw [(keystreamReady_same r).mode, hm]; decide
  rw [streamByte_eq, if_neg hq]
  by_cases hp : r.pos.val = 16
  · rw [if_pos hp, keystreamReady_at_boundary (Fin.ext hp), nextKeystream_chain_ctr hm]
  · have hlt := r.pos.isLt
    rw [if_neg hp, keystreamReady_in_block (by omega)]

theorem streamByte_ctrProgress (dir : Dir) {r : Regs} {t : Nat} (hm : r.mode = .ctr) (h : r.CtrProgress t) (b : Byte) :
    (streamByte dir r b).2.CtrProgress (t + 1) := by
  obtain ⟨hchain, hpos⟩ := h
  rw [Regs.CtrProgress, (streamByte_same dir r b).iv0, streamByte_chain_ctr dir hm, streamByte_pos]
  by_cases h16 : t % 16 = 0
  · have hbegun : (t + 1 + 15) / 16 = (t + 15) / 16 + 1 := by omega
    rw [if_pos h16] at hpos
    rw [if_pos hpos, if_pos hpos, if_neg (by omega), be128_inc128, hchain, hbegun, Nat.mod_add_mod, Nat.add_assoc]
    exact ⟨rfl, by omega⟩
  · have hbegun : (t + 1 + 15) / 16 = (t + 15) / 16 := by omega
    rw [if_neg h16] at hpos
    rw [if_neg (by omega), if_neg (by omega), hchain, hbegun, hpos]
    refine ⟨rfl, ?_⟩
    split <;> omega

theorem stream_ctrProgress (dir : Dir) {r : Regs} {t : Nat} (hm : r.mode = .ctr) (h : r.CtrProgress t) (bs : List Byte) :
    (stream dir r bs).2.CtrProgress (t + bs.length) := by
  induction bs generalizing r t with
  | nil => exact h
  | cons b bs ih =>
    have hb := ih ((streamByte_same dir r b).mode.trans hm) (streamByte_ctrProgress dir hm h b)
    rwa [Nat.add_assoc, Nat.add_comm 1] at hb

/-- Settles O47: the start of a session, and the byte loop byte by byte. -/
theorem ctrCounterAdvance : Obligations.CtrCounterAdvance := by
  refine ⟨fun _ hf => hf.ctrProgress, fun dir s t hv hm h => ?_⟩
  have hblock := isBlock_eq_false (.inr (.inr hm))
  have hs := stream_same dir s.regs s.din
  refine ⟨_, _, stream_answers dir hv hblock rfl, ?_⟩
  rw [regsAt_length dir s.regs rfl]
  exact ⟨hs.mode.trans hm, hs.valid.trans hv, stream_ctrProgress dir hm h s.din⟩

end Sys2Proof.Machine
end

section
/-! PROOFS. O51: a message in pieces (42_mode_engine.md R200, R201). -/

namespace Sys2Proof.Machine

/-! ## The mode engine on two pieces -/

theorem bytesOf_append (As Bs : List Block) : bytesOf (As ++ Bs) = bytesOf As ++ bytesOf Bs := List.flatMap_append

theorem blocksOf_append {n : Nat} (m : Nat) {as : List Byte} (bs : List Byte) (h : as.length = 16 * n) :
    blocksOf (n + m) (as ++ bs) = blocksOf n as ++ blocksOf m bs := by
  induction n generalizing as with
  | zero =>
    obtain rfl := List.length_eq_zero_iff.mp h
    rw [Nat.zero_add]
    rfl
  | succ n ih =>
    have h16 : 16 ≤ as.length := by omega
    have hfirst : Block.ofBytes (as ++ bs) = Block.ofBytes as := by
      rw [← Block.ofBytes_take, List.take_append_of_le_length h16, Block.ofBytes_take]
    rw [Nat.add_right_comm, blocksOf, hfirst, List.drop_append_of_le_length h16, ih (by rw [List.length_drop]; omega),
      blocksOf, List.cons_append]

/-- An aligned piece is cut into the same blocks with something after it. -/
theorem payloadBlocks_append {as : List Byte} (bs : List Byte) (h : as.length % 16 = 0) :
    payloadBlocks (as ++ bs) = payloadBlocks as ++ payloadBlocks bs := by
  have hdiv : (as ++ bs).length / 16 = as.length / 16 + bs.length / 16 := by
    rw [List.length_append]
    omega
  rw [payloadBlocks, hdiv, blocksOf_append _ bs (by omega), payloadBlocks, payloadBlocks]

theorem cbcEncBlocks_congr {r r' : Regs} (h : r'.forward = r.forward) (c : Block) (Ps : List Block) :
    cbcEncBlocks r' c Ps = cbcEncBlocks r c Ps := by
  induction Ps generalizing c with
  | nil => rfl
  | cons P Ps ih => rw [cbcEncBlocks, h, ih, cbcEncBlocks]

theorem cbcDecBlocks_congr {r r' : Regs} (h : r'.inverse = r.inverse) (c : Block) (Cs : List Block) :
    cbcDecBlocks r' c Cs = cbcDecBlocks r c Cs := by
  induction Cs generalizing c with
  | nil => rfl
  | cons C Cs ih => rw [cbcDecBlocks, h, ih, cbcDecBlocks]

/-- The mode engine does not see where a piece ends, if in a block mode it ends at a block boundary (R200, R201). -/
theorem crypt_append (dir : Dir) {r : Regs} {as : List Byte} (bs : List Byte)
    (ha : r.mode.isBlock = true → as.length % 16 = 0) :
    crypt dir r (as ++ bs) =
      ((crypt dir r as).1 ++ (crypt dir (crypt dir r as).2 bs).1, (crypt dir (crypt dir r as).2 bs).2) := by
  have hs := crypt_same dir r as
  cases hm : r.mode with
  | ecb =>
    have hblocks := payloadBlocks_append bs (ha (by rw [hm]; rfl))
    simp only [crypt_ecb dir hm, hblocks, List.map_append, bytesOf_append]
  | cbc =>
    have hblocks := payloadBlocks_append bs (ha (by rw [hm]; rfl))
    have hm' := hs.mode.trans hm
    cases dir with
    | enc =>
      rw [crypt_cbc_enc hm', cbcEncBlocks_congr hs.forward, crypt_cbc_enc hm, crypt_cbc_enc hm, hblocks,
        cbcEncBlocks_append, bytesOf_append]
    | dec =>
      rw [crypt_cbc_dec hm', cbcDecBlocks_congr hs.inverse, crypt_cbc_dec hm, crypt_cbc_dec hm, hblocks,
        cbcDecBlocks_append, bytesOf_append]
  | cfb | ofb | ctr =>
    have hb : r.mode.isBlock = false := by rw [hm]; rfl
    have hb' : (crypt dir r as).2.mode.isBlock = false := by rwa [hs.mode]
    rw [crypt_stream bs hb', crypt_stream as hb, crypt_stream (as ++ bs) hb, stream_append]

/-! ## Any number of pieces -/

/-- The mode engine on one piece after the other: the outputs, and the registers at the end. -/
def cryptPieces (dir : Dir) : Regs → List (List Byte) → List (List Byte) × Regs
  | r, [] => ([], r)
  | r, p :: ps =>
    let rest := cryptPieces dir (crypt dir r p).2 ps
    ((crypt dir r p).1 :: rest.1, rest.2)

/-- All the pieces may be sent to a session of these registers (R201). -/
def Aligned (r : Regs) (pieces : List (List Byte)) : Prop := r.mode.isBlock = true → ∀ p ∈ pieces, p.length % 16 = 0

theorem Aligned.head {r : Regs} {p : List Byte} {ps : List (List Byte)} (h : Aligned r (p :: ps)) :
    r.mode.isBlock = true → p.length % 16 = 0 := fun hm => h hm p List.mem_cons_self

theorem Aligned.tail {r r' : Regs} {p : List Byte} {ps : List (List Byte)} (h : Aligned r (p :: ps))
    (hs : SameSession r r') : Aligned r' ps := fun hm q hq => h (hs.mode ▸ hm) q (List.mem_cons_of_mem p hq)

/-- Several pieces give what they give when put together. -/
theorem cryptPieces_eq_crypt (dir : Dir) {r : Regs} {pieces : List (List Byte)} (ha : Aligned r pieces) :
    crypt dir r pieces.flatten = ((cryptPieces dir r pieces).1.flatten, (cryptPieces dir r pieces).2) := by
  induction pieces generalizing r with
  | nil => exact crypt_nil dir r
  | cons p ps ih => rw [List.flatten_cons, crypt_append dir _ ha.head, ih (ha.tail (crypt_same dir r p))]; rfl

theorem Aligned.flatten {r : Regs} {pieces : List (List Byte)} (h : Aligned r pieces) : Aligned r [pieces.flatten] := by
  intro hm p hp
  rw [List.mem_singleton.mp hp]
  have hdvd : 16 ∣ pieces.flatten.length := by
    rw [List.length_flatten]
    refine List.dvd_sum fun n hn => ?_
    obtain ⟨q, hq, rfl⟩ := List.mem_map.mp hn
    exact Nat.dvd_of_mod_eq_zero (h hm q hq)
  exact Nat.mod_eq_zero_of_dvd hdvd

/-! ## The machine on a host's data requests -/

/-- The word the host sends for a data command decodes to it (30_encoding.md R83). -/
theorem decode_dataRequest (dir : Dir) {payload : List Byte} (h : payload.length < 16777216) :
    decode (dataRequest dir payload).word = .ok (dir.command payload.length) := by
  refine decode_encode ?_
  cases dir with
  | enc | dec => exact decide_eq_true h

/-- A step on a data request of a valid session answers with what the mode engine gives. -/
theorem step_dataRequest (dir : Dir) {s : State} {p : List Byte} {rest : List Request}
    (hr : s.requests = dataRequest dir p :: rest) (hd : s.din = []) (hv : s.regs.valid = true) (ha : s.regs.mode.isBlock = true → p.length % 16 = 0)
    (hl : p.length < 16777216) :
    step s = .next (State.respond { s with requests := rest } (crypt dir s.regs p).2 (crypt dir s.regs p).1 none) := by
  rw [step_command hr hd (decode_dataRequest dir hl)]
  have hx := exec_command_ok (dir := dir) (s := { s with requests := rest, din := p }) rfl (dataError_none hv ha)
  exact hx

/-- The response to an accepted data command. -/
def okResponse (dout : List Byte) : Response := ⟨okWord, dout, none⟩

/-- The state after the host's requests are all answered. -/
def State.answered (s : State) (regs : Regs) (outs : List (List Byte)) : State :=
  { regs := regs, requests := [], din := [], responses := s.responses ++ outs.map okResponse }

theorem run_succ_of_step {M : Host.Core} {s s' : M.State} (k : Nat) (h : M.step s = .next s') :
    M.run (k + 1) s = M.run k s' := by
  rw [Host.Core.run, h]

/-- As many steps as there are data requests answer them all. -/
theorem run_dataRequests (dir : Dir) (pieces : List (List Byte)) (s : State) (hr : s.requests = pieces.map (dataRequest dir))
    (hd : s.din = []) (hv : s.regs.valid = true) (ha : Aligned s.regs pieces)
    (hl : ∀ p ∈ pieces, p.length < 16777216) :
    Sys2Proof.core.run pieces.length s =
      .next (s.answered (cryptPieces dir s.regs pieces).2 (cryptPieces dir s.regs pieces).1) := by
  induction pieces generalizing s with
  | nil =>
    obtain ⟨regs, requests, din, responses⟩ := s
    subst hr hd
    simp [Host.Core.run, cryptPieces, State.answered]
  | cons p ps ih =>
    have hs := crypt_same dir s.regs p
    have hstep := step_dataRequest dir hr hd hv ha.head (hl p List.mem_cons_self)
    have hrest := ih (State.respond { s with requests := ps.map (dataRequest dir) } (crypt dir s.regs p).2
      (crypt dir s.regs p).1 none) rfl rfl (hs.valid.trans hv) (ha.tail hs) fun q hq => hl q (List.mem_cons_of_mem p hq)
    refine (run_succ_of_step (M := Sys2Proof.core) ps.length hstep).trans (hrest.trans ?_)
    simp [State.answered, cryptPieces, okResponse]

/-- Settles O51: the pieces give what their concatenation gives, which is the message as its only piece. -/
theorem chunkingIsInvisible : Obligations.ChunkingIsInvisible := by
  intro dir s pieces hv hd ha hl
  have hpiece : ∀ p ∈ pieces, p.length < 16777216 := fun p hp =>
    (List.Sublist.length_le (List.sublist_flatten_of_mem hp)).trans_lt hl
  have hpieces := cryptPieces_eq_crypt dir (r := s.regs) ha
  have hrun := run_dataRequests dir pieces { s with requests := pieces.map (dataRequest dir) } rfl hd hv ha hpiece
  have hone := run_dataRequests dir [pieces.flatten] { s with requests := [dataRequest dir pieces.flatten] } rfl hd hv
    (Aligned.flatten ha) fun p hp => List.mem_singleton.mp hp ▸ hl
  refine ⟨_, _, (cryptPieces dir s.regs pieces).1.map okResponse, okResponse (crypt dir s.regs pieces.flatten).1, hrun,
    hone, rfl, rfl, fun a hmem => ?_, rfl, ?_, ?_⟩
  · obtain ⟨out, -, rfl⟩ := List.mem_map.mp hmem
    rfl
  · rw [hpieces, List.flatMap_map]
    exact List.flatMap_id'
  · exact (congrArg Prod.snd hpieces).symm

end Sys2Proof.Machine
end

section
/-! PROOFS. O38, O52: `DEC` undoes `ENC` (42_mode_engine.md R202), and the worked examples of the block core
(41_block_transform.md sections 5 and 6). -/

namespace Sys2Proof.Machine

/-! ## The worked examples of the block core -/

/-- The key bytes `00 01 02 ..` of the worked examples. -/
def countingKey (k : KeyWords) : List Byte := (List.range (4 * k.words)).map (BitVec.ofNat 8)

theorem forward_counting_k4 : forward KeyWords.k4.rounds (expandKey .k4 (countingKey .k4))
    (blk128 0x00112233445566778899aabbccddeeff) = blk128 0x69c4e0d86a7b0430d8cdb78070b4c55a := by decide +kernel

theorem forward_counting_k6 : forward KeyWords.k6.rounds (expandKey .k6 (countingKey .k6))
    (blk128 0x00112233445566778899aabbccddeeff) = blk128 0xdda97ca4864cdfe06eaf70a0ec0d7191 := by decide +kernel

theorem forward_counting_k8 : forward KeyWords.k8.rounds (expandKey .k8 (countingKey .k8))
    (blk128 0x00112233445566778899aabbccddeeff) = blk128 0x8ea2b7ca516745bfeafc49904b496089 := by decide +kernel

theorem inverse_forward (k : KeyWords) (ek : Schedule) (B : Block) :
    inverse k.rounds (invSchedule k ek) (forward k.rounds ek B) = B := (inverseUndoesForward k ek B).1

/-- What `Forward` gives, `Inverse` over the inverse schedule takes back (R165). -/
theorem forward_and_inverse {k : KeyWords} {ek : Schedule} {P C : Block} (h : forward k.rounds ek P = C) :
    forward k.rounds ek P = C ∧ inverse k.rounds (invSchedule k ek) C = P := ⟨h, h ▸ inverse_forward k ek P⟩

/-- Settles O38: `Forward` by evaluation, `Inverse` because it takes it back. -/
theorem blockCoreWorkedExamples : Obligations.BlockCoreWorkedExamples := by
  intro k hk
  cases k with
  | k0 => exact absurd rfl hk
  | k4 => exact forward_and_inverse forward_counting_k4
  | k6 => exact forward_and_inverse forward_counting_k6
  | k8 => exact forward_and_inverse forward_counting_k8

/-! ## `DEC` undoes `ENC` in every mode -/

/-- The mode engine's `Inverse` undoes its `Forward` when `DK` belongs to `EK` (R32 (b)). -/
theorem Regs.Inv.inverse_forward {r : Regs} (h : r.Inv) (hv : r.valid = true) (B : Block) : r.inverse (r.forward B) = B := by
  obtain ⟨-, -, hdk⟩ := h.active hv
  rw [Regs.inverse, Regs.nr, hdk]
  exact Machine.inverse_forward r.nk r.ek B

theorem cbcDecBlocks_cbcEncBlocks {r : Regs} (hinv : ∀ B, r.inverse (r.forward B) = B) (c : Block) (Ps : List Block) :
    cbcDecBlocks r c (cbcEncBlocks r c Ps).1 = (Ps, (cbcEncBlocks r c Ps).2) := by
  induction Ps generalizing c with
  | nil => rfl
  | cons P Ps ih => simp only [cbcEncBlocks, cbcDecBlocks, ih, hinv, Block.xor_xor_cancel]

/-- On the ciphertext byte the pass of `DEC` gives the byte back and does to the registers what `ENC` did (R195). -/
theorem streamByte_dec_enc (r : Regs) (b : Byte) :
    streamByte .dec r (streamByte .enc r b).1 = (b, (streamByte .enc r b).2) := by
  simp only [streamByte_eq, Dir.ciphertext, BitVec.xor_assoc, BitVec.xor_self, BitVec.xor_zero]

theorem stream_dec_enc (r : Regs) (bs : List Byte) :
    stream .dec r (stream .enc r bs).1 = (bs, (stream .enc r bs).2) := by
  induction bs generalizing r with
  | nil => rfl
  | cons b bs ih => simp only [stream, streamByte_dec_enc, ih]

theorem payloadBlocks_bytesOf (Bs : List Block) : payloadBlocks (bytesOf Bs) = Bs := by
  rw [payloadBlocks_of_length (bytesOf_length Bs), blocksOf_bytesOf]

/-- An aligned payload is the bytes of its blocks. -/
theorem bytesOf_payloadBlocks {din : List Byte} (h : din.length % 16 = 0) : bytesOf (payloadBlocks din) = din :=
  bytesOf_blocksOf (by omega)

/-- Decrypting what was encrypted from the same registers gives the message and the same registers (R202). -/
theorem crypt_dec_enc {r : Regs} {x : List Byte} (hinv : ∀ B, r.inverse (r.forward B) = B)
    (ha : r.mode.isBlock = true → x.length % 16 = 0) :
    crypt .dec r (crypt .enc r x).1 = (x, (crypt .enc r x).2) := by
  cases hm : r.mode with
  | ecb =>
    have hx := bytesOf_payloadBlocks (ha (by rw [hm]; rfl))
    have hid : Dir.dec.transform r ∘ Dir.enc.transform r = id := funext hinv
    rw [crypt_ecb .enc hm, crypt_ecb .dec hm, payloadBlocks_bytesOf, List.map_map, hid, List.map_id, hx]
  | cbc =>
    have hx := bytesOf_payloadBlocks (ha (by rw [hm]; rfl))
    rw [crypt_cbc_enc hm, crypt_cbc_dec hm, payloadBlocks_bytesOf, cbcDecBlocks_cbcEncBlocks hinv, hx]
  | cfb | ofb | ctr =>
    have hb : r.mode.isBlock = false := by rw [hm]; rfl
    rw [crypt_stream x hb, crypt_stream _ hb, stream_dec_enc]

/-- `RESET` takes a session that was just begun back to its beginning, whatever was done in it. -/
theorem Regs.Fresh.rewind_of_same {r r' : Regs} (h : r.Fresh) (hs : SameSession r r') : rewind r' = r := by
  calc rewind r' = rewind r := by rw [hs]; rfl
    _ = r := h.rewind_eq

/-- A data command of a valid session, on a payload put on the data-in stream. -/
theorem exec_command_on {dir : Dir} {s : State} {din out : List Byte} {r : Regs} (hv : s.regs.valid = true)
    (ha : s.regs.mode.isBlock = true → din.length % 16 = 0) (hc : crypt dir s.regs din = (out, r)) :
    exec (dir.command din.length) { s with din := din } = .next (s.respond r out none) := by
  have hx := answersOk_of_crypt (s := { s with din := din }) hv ha rfl hc
  exact hx

/-- Settles O52: `RESET` brings back the registers from which `ENC` began, and from them `DEC` undoes it. -/
theorem decryptUndoesEncrypt : Obligations.DecryptUndoesEncrypt := by
  intro s x hs hv hf ha
  have hlen := crypt_length .enc s.regs x ha
  have hsame := crypt_same .enc s.regs x
  have hundo := crypt_dec_enc (hs.inverse_forward hv) ha
  obtain ⟨y, r, hc⟩ : ∃ y r, crypt .enc s.regs x = (y, r) := ⟨_, _, rfl⟩
  rw [hc] at hlen hsame hundo
  have henc := exec_command_on hv ha hc
  have hreset := execReset_active (s := s.respond r y none) rfl (hsame.valid.trans hv)
  rw [respond_regs, hf.rewind_of_same hsame] at hreset
  have hdec := exec_command_on (s := (s.respond r y none).respond s.regs [] none) hv (by rwa [hlen]) hundo
  exact ⟨_, _, _, y, henc, rfl, hreset, hlen, hdec, rfl, rfl⟩

end Sys2Proof.Machine
end
